-- ==== Sys2Proof/Word.lean ====
section
/-! DEFINITION. The value types of CORE128 (00_scope.md R5 to R9) and the named constants of R11. -/

namespace Sys2Proof

/-- A 64-bit storage word, `word[0]` or `word[1]` of a value (R5, R6). -/
abbrev Word64 := BitVec 64

/-- A 128-bit value, `{V.hi, V.lo}` (R6): any pattern is valid (R9), read as unsigned (`toNat`, the spec's `u`)
or as two's complement (`toInt`, the spec's `s`) (R7). -/
abbrev Value := BitVec 128

/-- UMIN = 0, also the default-constructed value (R11). -/
def umin : Value := 0x00000000000000000000000000000000#128

/-- UMAX = 2^128 - 1 (R11). -/
def umax : Value := 0xFFFFFFFFFFFFFFFFFFFFFFFFFFFFFFFF#128

/-- SMIN = -2^127 (R11). -/
def smin : Value := 0x80000000000000000000000000000000#128

/-- SMAX = 2^127 - 1 (R11). -/
def smax : Value := 0x7FFFFFFFFFFFFFFFFFFFFFFFFFFFFFFF#128

/-- The digit counts of R11: the number of non-sign value bits. -/
def unsignedDigits : Nat := 128

/-- See `unsignedDigits` (R11). -/
def signedDigits : Nat := 127

end Sys2Proof
end

