-- ==== Sys2Proof/Config.lean ====
section
/-! DEFINITION. What is fixed for the machine (00_scope.md R5), and the parameters the spec leaves open
(93_implementation_defined.md U5, U6, U11, U12), the latter as constants with no body, so that no proof can use a
value of theirs. -/

namespace Sys2Proof

/-- NATIVE_WIDTHS = {8, 16, 32, 64}: the widths of the native integers of SEXT, ZEXT and TRUNC (R5, R82, R265). -/
inductive NativeWidth where
  | w8
  | w16
  | w32
  | w64
deriving DecidableEq, Repr

namespace Config

/-- DIGIT_BASE = 2^32, the base of the divider's and the schoolbook multiplier's digits (R5). -/
def digitBase : Nat := 2 ^ 32

/-- HAS_FAST_PATH (R5, R40, U5): whether this implementation has hardware intrinsics. No result depends on it (log 14). -/
opaque hasFastPath : Bool

/-- LATENCY(op) (R344, U11): the finite time of a command, by operation code. No rule reads it (log 14). -/
opaque latency : BitVec 5 → Nat

/-- HOST_BYTE_ORDER (R61, U12): which byte of a value the host keeps at each offset. No rule reads it (log 14). -/
opaque hostByteOrder : Fin 16 → Fin 16

/-- Whether path D-2 runs Algorithm D with n = 2 rather than R196 (R194, U6). No result depends on it (log 12). -/
opaque twoDigitByAlgorithmD : Bool

/-- Whether the divider takes the early exit of R203 on a numerator below the divisor (U6). No result depends on it
(log 12). -/
opaque earlyExit : Value → Value → Bool

end Config

end Sys2Proof
end

