-- ==== Sys2Proof/Syntax.lean ====
section
/-! DEFINITION. The instructions: one constructor per row of opcode_table.json (30_encoding.md R84). There are no
immediates (R83): the operands come from the command inputs, so only the native width is part of an instruction. -/

namespace Sys2Proof

/-- The 23 operations (R84). SEXT, ZEXT and TRUNC carry the width that WID selects (R82). -/
inductive Instr where
  | add
  | adc64
  | inc
  | sub
  | sbb64
  | dec
  | neg
  | wmul64
  | mul
  | divu
  | remu
  | shl
  | shrl
  | shra
  | cmpu
  | cmps
  | test
  | muls
  | divs
  | rems
  | sext (w : NativeWidth)
  | zext (w : NativeWidth)
  | trunc (w : NativeWidth)
deriving DecidableEq, Repr

end Sys2Proof
end

