-- ==== Sys2Proof/Decode.lean ====
section
/-! DEFINITION. The command word (30_encoding.md R80 to R87): its fields, the decoder, total on all 65,536 words and
rejecting by name, and the encoder. -/

namespace Sys2Proof

/-- Why a command word is illegal (R86). The model's own names: every one of them raises ILLEGAL_OP. -/
inductive DecodeError where
  /-- R86 (a): OPC is 0x00, 0x0F, 0x13, 0x17 or in 0x1B to 0x1F. -/
  | reservedOpcode
  /-- R86 (b): RSV is not zero. -/
  | reservedBits
  /-- R86 (c): WID is not 00 and the operation has no width. -/
  | widthNotAllowed
deriving DecidableEq, Repr

/-- OPC = CMD[4:0] (R81). -/
def fieldOpc (cmd : BitVec 16) : BitVec 5 := cmd.extractLsb' 0 5

/-- WID = CMD[6:5] (R81). -/
def fieldWid (cmd : BitVec 16) : BitVec 2 := cmd.extractLsb' 5 2

/-- RSV = CMD[15:7] (R81). -/
def fieldRsv (cmd : BitVec 16) : BitVec 9 := cmd.extractLsb' 7 9

/-- The width that WID selects (R82). -/
def widthOfCode (wid : BitVec 2) : NativeWidth :=
  match wid.toNat with
  | 0 => .w8
  | 1 => .w16
  | 2 => .w32
  | _ => .w64

/-- The WID code of a width (R82). -/
def codeOfWidth (w : NativeWidth) : BitVec 2 :=
  match w with
  | .w8 => 0b00#2
  | .w16 => 0b01#2
  | .w32 => 0b10#2
  | .w64 => 0b11#2

/-- An operation without a width: WID must be 00 (R81, R86 (c)). -/
def decodePlain (wid : BitVec 2) (i : Instr) : Except DecodeError Instr :=
  if wid = 0b00#2 then .ok i else .error .widthNotAllowed

/-- The opcode map (R84), for a word whose reserved bits are zero. -/
def decodeOpc (opc : BitVec 5) (wid : BitVec 2) : Except DecodeError Instr :=
  match opc.toNat with
  | 0x01 => decodePlain wid .add
  | 0x02 => decodePlain wid .adc64
  | 0x03 => decodePlain wid .inc
  | 0x04 => decodePlain wid .sub
  | 0x05 => decodePlain wid .sbb64
  | 0x06 => decodePlain wid .dec
  | 0x07 => decodePlain wid .neg
  | 0x08 => decodePlain wid .wmul64
  | 0x09 => decodePlain wid .mul
  | 0x0A => decodePlain wid .divu
  | 0x0B => decodePlain wid .remu
  | 0x0C => decodePlain wid .shl
  | 0x0D => decodePlain wid .shrl
  | 0x0E => decodePlain wid .shra
  | 0x10 => decodePlain wid .cmpu
  | 0x11 => decodePlain wid .cmps
  | 0x12 => decodePlain wid .test
  | 0x14 => decodePlain wid .muls
  | 0x15 => decodePlain wid .divs
  | 0x16 => decodePlain wid .rems
  | 0x18 => .ok (.sext (widthOfCode wid))
  | 0x19 => .ok (.zext (widthOfCode wid))
  | 0x1A => .ok (.trunc (widthOfCode wid))
  | _ => .error .reservedOpcode

/-- The decoder (R81, R84, R86). Which of several reasons an illegal word is rejected under is the model's choice: all
raise ILLEGAL_OP. -/
def decode (cmd : BitVec 16) : Except DecodeError Instr :=
  if fieldRsv cmd = 0#9 then decodeOpc (fieldOpc cmd) (fieldWid cmd) else .error .reservedBits

/-- `illegal(OPC, WID, RSV)` of R88, word for word from R86 (a), (b) and (c), apart from the decoder. -/
def illegalWord (cmd : BitVec 16) : Bool :=
  let opc := (fieldOpc cmd).toNat
  decide (opc = 0x00 ∨ opc = 0x0F ∨ opc = 0x13 ∨ opc = 0x17 ∨ (0x1B ≤ opc ∧ opc ≤ 0x1F)) ||
  decide (fieldRsv cmd ≠ 0#9) ||
  (decide (fieldWid cmd ≠ 0b00#2) && decide (opc ≠ 0x18 ∧ opc ≠ 0x19 ∧ opc ≠ 0x1A))

/-- The operation code of an instruction (R84). -/
def opcode (i : Instr) : BitVec 5 :=
  match i with
  | .add => 0x01#5
  | .adc64 => 0x02#5
  | .inc => 0x03#5
  | .sub => 0x04#5
  | .sbb64 => 0x05#5
  | .dec => 0x06#5
  | .neg => 0x07#5
  | .wmul64 => 0x08#5
  | .mul => 0x09#5
  | .divu => 0x0A#5
  | .remu => 0x0B#5
  | .shl => 0x0C#5
  | .shrl => 0x0D#5
  | .shra => 0x0E#5
  | .cmpu => 0x10#5
  | .cmps => 0x11#5
  | .test => 0x12#5
  | .muls => 0x14#5
  | .divs => 0x15#5
  | .rems => 0x16#5
  | .sext _ => 0x18#5
  | .zext _ => 0x19#5
  | .trunc _ => 0x1A#5

/-- The WID field of an instruction: its width's code, or 00 (R81, R82). -/
def widField (i : Instr) : BitVec 2 :=
  match i with
  | .sext w => codeOfWidth w
  | .zext w => codeOfWidth w
  | .trunc w => codeOfWidth w
  | .add | .adc64 | .inc | .sub | .sbb64 | .dec | .neg | .wmul64 | .mul | .divu | .remu | .shl | .shrl | .shra
  | .cmpu | .cmps | .test | .muls | .divs | .rems => 0b00#2

/-- The encoder: `CMD = OPC + 32 * WID` with RSV = 0 (R81). -/
def encode (i : Instr) : BitVec 16 := BitVec.ofNat 16 ((opcode i).toNat + 32 * (widField i).toNat)

/-- The 32 legal instructions, in the order of R84 (R87). -/
def allInstrs : List Instr :=
  [.add, .adc64, .inc, .sub, .sbb64, .dec, .neg, .wmul64, .mul, .divu, .remu, .shl, .shrl, .shra, .cmpu, .cmps, .test,
    .muls, .divs, .rems] ++
  [NativeWidth.w8, .w16, .w32, .w64].map .sext ++ [NativeWidth.w8, .w16, .w32, .w64].map .zext ++
  [NativeWidth.w8, .w16, .w32, .w64].map .trunc

/-- The instruction the decoder reads from the table's numbering of a command word's bits: a command is one 16-bit word
(R80), so bit k of the table is CMD[k]; bits from `nbits` up are 0. -/
def decodeTableWord (nbits w : Nat) : Option Instr :=
  (decode (BitVec.ofNat 16 (w % 2 ^ nbits))).toOption

end Sys2Proof
end

