-- ==== Sys2Proof/Machine/State.lean ====
section
/-! DEFINITION. The state of CORE128 (10_state.md R32), its command inputs (R31), the host's program state
(70_reset_and_hazards.md R345), and the reasons a step or a read can stop. -/

namespace Sys2Proof.Machine

/-- The fault causes of R300. -/
inductive Cause where
  | illegalOp
  | divZero
  | shiftRange
deriving DecidableEq, Repr

/-- The registers the host reads (R32, R309). -/
inductive OutReg where
  | y
  | z
  | f
  | ord
  | status
deriving DecidableEq, Repr

/-- A faulting COMMAND is no `Fault`: it is a next state that STATUS reports (R302, R305). -/
inductive Fault where
  /-- Raised by `hostRead` alone, never by `step`: the host reads a register that holds no value, and gets no bits
  (R37, U7). Safe: no value is made up. A host line records it in the fault mark and goes on (log 6). -/
  | readNoValue (r : OutReg)
deriving DecidableEq, Repr

/-- No meaning of this model answers a refusal. -/
inductive Refusal where
  /-- Raised by an arm of `exec` for an instruction without a meaning; no arm is left so. Safe. -/
  | notModelled (mnemonic : String)
deriving DecidableEq, Repr

/-- The command inputs of R31, as the host presents them. -/
structure Inputs where
  cmd : BitVec 16
  a : Value
  b : Value
  cnt : BitVec 32
  cin : Bool
  path : Bool
deriving DecidableEq, Repr

/-- What a completed command writes (R38): a register left at `none` takes no value. -/
structure Outputs where
  y : Option Value := none
  z : Option Value := none
  f : Option Bool := none
  ord : Option (BitVec 2) := none
deriving DecidableEq, Repr

/-- What a host variable can hold (R345): a 128-bit value, a bit or an ORD value. -/
inductive HostVal where
  | value (v : Value)
  | bit (b : Bool)
  | order (o : BitVec 2)
deriving DecidableEq, Repr

/-- An operand of a host line: a host variable or a literal (R89). -/
inductive Src (α : Type) where
  | var (n : Nat)
  | lit (v : α)
deriving DecidableEq, Repr

/-- The relations of a host test, named after the pseudo-instructions of R90: `u` unsigned, `s` signed (log 9). -/
inductive Rel where
  | eq
  | ne
  | ltu
  | leu
  | gtu
  | geu
  | lts
  | les
  | gts
  | ges
deriving DecidableEq, Repr

/-- A host test: a variable compared with a literal (R345). -/
structure HostTest where
  var : Nat
  rel : Rel
  lit : HostVal
deriving DecidableEq, Repr

/-- A command line `dst <- OP operands` (R89, R345): the inputs it presents, and which register it copies into which
variable. The word is raw, so that a host can issue an illegal one (R343). -/
structure CmdLine where
  word : BitVec 16
  a : Src Value := .lit 0
  b : Src Value := .lit 0
  cnt : Src (BitVec 32) := .lit 0
  cin : Src Bool := .lit false
  path : Bool := false
  dsts : List (OutReg × Nat) := []
deriving DecidableEq, Repr

/-- A line of a host program (R345). A line is numbered by its place in the program, from 0. -/
inductive Line where
  /-- `dsts <- OP operands` (R345). -/
  | issue (c : CmdLine)
  /-- Read a register into a variable, with no command (R343, log 10). -/
  | read (dst : Nat) (r : OutReg)
  /-- `dst <- src` (R345). -/
  | copy (dst : Nat) (src : Src HostVal)
  /-- Apply reset (R340, R343). -/
  | reset
  /-- `goto target` (R345). -/
  | goto (target : Nat)
  /-- `if test goto target` (R345, log 9). -/
  | ifGoto (t : HostTest) (target : Nat)
  /-- `while test`, whose body ends before line `exit` (R345). That nothing after the body returns to the test, so
  that a loop ends its body with a `goto` back to this line, is the model's choice: R345 does not say what follows the
  body (log 9). -/
  | whileDo (t : HostTest) (exit : Nat)
deriving DecidableEq, Repr

/-- The state. `y` to `status` are CORE128's registers (R32), `inp` the inputs as presented (R31, log 1), and the rest is
the host's (R345, log 2). -/
structure State where
  y : Option Value
  z : Option Value
  f : Option Bool
  ord : Option (BitVec 2)
  status : BitVec 8
  inp : Inputs
  prog : List Line
  line : Nat
  vars : List (Nat × HostVal)
  mark : Bool
deriving DecidableEq, Repr

/-- The inputs before any command is presented (log 1). -/
def Inputs.reset : Inputs := { cmd := 0, a := 0, b := 0, cnt := 0, cin := false, path := false }

/-- The machine after reset: the registers as R45 gives them, and a host with no program and no variable (log 2). -/
def State.reset : State :=
  { y := none, z := none, f := none, ord := none, status := 0x00#8,
    inp := Inputs.reset, prog := [], line := 0, vars := [], mark := false }

end Sys2Proof.Machine
end

