-- ==== Sys2Proof/Machine/Operands.lean ====
section
/-! DEFINITION. The views of a value (00_scope.md R6 to R10), the command's operands (30_encoding.md R83) and the host's
variables and operands (70_reset_and_hazards.md R345, 30_encoding.md R89). -/

namespace Sys2Proof.Machine

/-- `V.lo = V[63:0]`, the source's `word[0]` (R6). -/
def lo (v : Value) : Word64 := v.extractLsb' 0 64

/-- `V.hi = V[127:64]`, the source's `word[1]` (R6). -/
def hi (v : Value) : Word64 := v.extractLsb' 64 64

/-- `{h, l}`, from the word pair in the source's (low, high) order (R6). -/
def pair (l h : Word64) : Value := h ++ l

/-- `u(digit_i(V))`: digit i in base 2^32, least significant first (R8, R9). -/
def digitNat (n i : Nat) : Nat := n / Config.digitBase ^ i % Config.digitBase

/-- `neg(V) = bits_128(0 - u(V))` (R10). -/
def negValue (v : Value) : Value := BitVec.ofInt 128 (0 - (v.toNat : Int))

/-- `abs(V)` (R10): SMIN is its own absolute value. -/
def absValue (v : Value) : Value := if v.msb then negValue v else v

/-- `w`, in bits (R82). -/
def widthBits (w : NativeWidth) : Nat :=
  match w with
  | .w8 => 8
  | .w16 => 16
  | .w32 => 32
  | .w64 => 64

/-- `A[w-1:0]`, the native integer an operand carries (R265). -/
def nativeBits (w : NativeWidth) (v : Value) : BitVec (widthBits w) := v.extractLsb' 0 (widthBits w)

/-- The operand A (R83). -/
def opA (s : State) : Value := s.inp.a

/-- The operand B (R83). -/
def opB (s : State) : Value := s.inp.b

/-- `k = u(CNT)` (R83, R100). -/
def opCount (s : State) : Nat := s.inp.cnt.toNat

/-- CIN, the carry or borrow in (R83). -/
def opCin (s : State) : Bool := s.inp.cin

/-- The value of host variable `n`, or none for no value (R345). -/
def varsGet (vars : List (Nat × HostVal)) (n : Nat) : Option HostVal :=
  match vars with
  | [] => none
  | (m, v) :: rest => if m = n then some v else varsGet rest n

/-- Variable `n` without a value; the other variables as they are. -/
def varsErase (vars : List (Nat × HostVal)) (n : Nat) : List (Nat × HostVal) :=
  match vars with
  | [] => []
  | (m, v) :: rest => if m = n then rest else (m, v) :: varsErase rest n

/-- Variable `n` holding `v`; the list keeps its variables rising. -/
def varsInsert (vars : List (Nat × HostVal)) (n : Nat) (v : HostVal) : List (Nat × HostVal) :=
  match vars with
  | [] => [(n, v)]
  | (m, u) :: rest =>
    if n < m then (n, v) :: (m, u) :: rest
    else if m = n then (n, v) :: rest
    else (m, u) :: varsInsert rest n v

/-- Give variable `n` a value, or no value. -/
def varsSet (vars : List (Nat × HostVal)) (n : Nat) (v : Option HostVal) : List (Nat × HostVal) :=
  match v with
  | none => varsErase vars n
  | some u => varsInsert vars n u

/-- The canonical form of the variables: strictly rising, so that equal variables are equal lists. -/
abbrev varsWf (vars : List (Nat × HostVal)) : Prop := (vars.map Prod.fst).Pairwise (· < ·)

/-- A 128-bit operand of a host line; none where the variable holds no 128-bit value (R345, log 8). -/
def srcValue (src : Src Value) (vars : List (Nat × HostVal)) : Option Value :=
  match src with
  | .lit v => some v
  | .var n =>
    match varsGet vars n with
    | some (.value v) => some v
    | _ => none

/-- A shift count of a host line: a variable counts if its value fits the 32 bits of CNT (R5, log 8). -/
def srcCount (src : Src (BitVec 32)) (vars : List (Nat × HostVal)) : Option (BitVec 32) :=
  match src with
  | .lit v => some v
  | .var n =>
    match varsGet vars n with
    | some (.value v) => if v.toNat < 2 ^ 32 then some (v.setWidth 32) else none
    | _ => none

/-- A carry or borrow operand of a host line (R89, log 8). -/
def srcBit (src : Src Bool) (vars : List (Nat × HostVal)) : Option Bool :=
  match src with
  | .lit v => some v
  | .var n =>
    match varsGet vars n with
    | some (.bit b) => some b
    | _ => none

/-- The source of a host copy (R345): any content. -/
def srcAny (src : Src HostVal) (vars : List (Nat × HostVal)) : Option HostVal :=
  match src with
  | .lit v => some v
  | .var n => varsGet vars n

/-- The inputs a command line presents (R31, R345), or none if it reads a variable that has no value. -/
def presentedInputs (c : CmdLine) (vars : List (Nat × HostVal)) : Option Inputs :=
  match srcValue c.a vars, srcValue c.b vars, srcCount c.cnt vars, srcBit c.cin vars with
  | some a, some b, some n, some ci => some { cmd := c.word, a := a, b := b, cnt := n, cin := ci, path := c.path }
  | _, _, _, _ => none

/-- Whether two 128-bit values stand in a relation (R90). -/
def valueRel (r : Rel) (v w : Value) : Bool :=
  match r with
  | .eq => decide (v = w)
  | .ne => decide (v ≠ w)
  | .ltu => decide (v.toNat < w.toNat)
  | .leu => decide (v.toNat ≤ w.toNat)
  | .gtu => decide (w.toNat < v.toNat)
  | .geu => decide (w.toNat ≤ v.toNat)
  | .lts => decide (v.toInt < w.toInt)
  | .les => decide (v.toInt ≤ w.toInt)
  | .gts => decide (w.toInt < v.toInt)
  | .ges => decide (w.toInt ≤ v.toInt)

/-- Equal or different, for contents that have no order. -/
def equalityRel (r : Rel) (equal : Bool) : Option Bool :=
  match r with
  | .eq => some equal
  | .ne => some (!equal)
  | .ltu | .leu | .gtu | .geu | .lts | .les | .gts | .ges => none

/-- A test of a variable's content against a literal (R345); none where the two cannot be compared. A bit is compared with
a number as 0 or 1 (log 8, 9). -/
def contentRel (r : Rel) (c l : HostVal) : Option Bool :=
  match c, l with
  | .value v, .value w => some (valueRel r v w)
  | .bit b, .bit d => equalityRel r (b == d)
  | .bit b, .value w => equalityRel r (b.toNat == w.toNat)
  | .order o, .order p => equalityRel r (o == p)
  | .value _, .bit _ | .value _, .order _ | .bit _, .order _ | .order _, .value _ | .order _, .bit _ => none

/-- The truth of a host test (R345), or none if its variable has no value to compare. -/
def testHolds (t : HostTest) (vars : List (Nat × HostVal)) : Option Bool :=
  match varsGet vars t.var with
  | none => none
  | some c => contentRel t.rel c t.lit

end Sys2Proof.Machine
end

