-- ==== Sys2Proof/Machine/Flags.lean ====
section
/-! DEFINITION. The flag-like results: the carry and borrow of F (10_state.md R35), the truth value of F, the order code of
ORD (R36), and the fields of STATUS (R39). No operation sets any other flag (R43). -/

namespace Sys2Proof.Machine

/-- `add_with_carry` (R130): the low 64 bits of the exact sum, and the carry out. -/
def addWithCarry (carryIn : Bool) (a b : Word64) : Word64 × Bool :=
  let t : Nat := a.toNat + b.toNat + carryIn.toNat
  (BitVec.ofNat 64 t, decide (2 ^ 64 ≤ t))

/-- `sub_with_borrow` (R140): the low 64 bits of the exact difference, and the borrow out. -/
def subWithBorrow (borrowIn : Bool) (a b : Word64) : Word64 × Bool :=
  let t : Int := (a.toNat : Int) - (b.toNat : Int) - (borrowIn.toNat : Int)
  (BitVec.ofInt 64 t, decide (t < 0))

/-- The truth value of a 128-bit value (R264): either word is nonzero. -/
def truthValue (a : Value) : Bool := decide (lo a ≠ 0 ∨ hi a ≠ 0)

/-- ORD = 00: the operands are equal (R36). -/
def ordEQ : BitVec 2 := 0b00#2

/-- ORD = 01: A is less than B (R36). -/
def ordLT : BitVec 2 := 0b01#2

/-- ORD = 10: A is greater than B (R36). -/
def ordGT : BitVec 2 := 0b10#2

/-- The unsigned three-way order, the high words first (R260). -/
def orderUnsigned (a b : Value) : BitVec 2 :=
  if (hi a).toNat < (hi b).toNat then ordLT
  else if (hi a).toNat > (hi b).toNat then ordGT
  else if (lo a).toNat < (lo b).toNat then ordLT
  else if (lo a).toNat > (lo b).toNat then ordGT
  else ordEQ

/-- The signed three-way order: the high words as signed, then the low words as unsigned (R261). -/
def orderSigned (a b : Value) : BitVec 2 :=
  if (hi a).toInt < (hi b).toInt then ordLT
  else if (hi a).toInt > (hi b).toInt then ordGT
  else if (lo a).toNat < (lo b).toNat then ordLT
  else if (lo a).toNat > (lo b).toNat then ordGT
  else ordEQ

/-- STATUS from its fields: bit 0 FAULT, bits 2:1 CAUSE, bit 3 STICKY, bits 7:4 hardwired 0 (R39). -/
def statusWord (fault : Bool) (cause : BitVec 2) (sticky : Bool) : BitVec 8 :=
  (BitVec.ofBool fault).setWidth 8 ||| (cause.setWidth 8 <<< 1) ||| ((BitVec.ofBool sticky).setWidth 8 <<< 3)

/-- STATUS.FAULT (R39). -/
def statusFault (status : BitVec 8) : Bool := status.getLsbD 0

/-- STATUS.CAUSE (R39). -/
def statusCause (status : BitVec 8) : BitVec 2 := status.extractLsb' 1 2

/-- STATUS.STICKY (R39). -/
def statusSticky (status : BitVec 8) : Bool := status.getLsbD 3

/-- STATUS[7:4], reserved (R39). -/
def statusReserved (status : BitVec 8) : BitVec 4 := status.extractLsb' 4 4

/-- The code of a cause in STATUS.CAUSE (R300). -/
def causeCode (c : Cause) : BitVec 2 :=
  match c with
  | .illegalOp => 1#2
  | .divZero => 2#2
  | .shiftRange => 3#2

end Sys2Proof.Machine
end

