-- ==== Sys2Proof/Machine/Ops.lean ====
section
/-! DEFINITION. The shared operations of a command: completing it (10_state.md R38, R39), raising a fault (60_exceptions.md
R301, R302), reset (70_reset_and_hazards.md R340), and the host's reads and copies (10_state.md R37, R345). -/

namespace Sys2Proof.Machine

/-- A command that does not fault (R38, R39, R88): the registers it writes take their values, every other one takes no
value, FAULT and CAUSE are 0 and STICKY keeps its value. -/
def State.complete (o : Outputs) (s : State) : State :=
  { s with y := o.y, z := o.z, f := o.f, ord := o.ord, status := statusWord false 0#2 (statusSticky s.status) }

/-- `raise Fault(c)` (R301, R302): no output takes a value; FAULT, CAUSE and STICKY report it, and nothing else changes.
There is no trap entry (R304) and no return: the next command runs as after a success (R305). -/
def State.raiseFault (c : Cause) (s : State) : State :=
  { s with y := none, z := none, f := none, ord := none, status := statusWord true (causeCode c) true }

/-- Reset (R340, R45): every piece of CORE128's state takes its reset value; the host's program, its variables and its
mark are not CORE128's (95 P5, log 11). -/
def State.applyReset (s : State) : State :=
  { s with y := none, z := none, f := none, ord := none, status := 0x00#8 }

/-- A command that writes Y alone (R85). -/
def yOnly (v : Value) : Outputs := { y := some v }

/-- A command that writes Y and F (R85). -/
def yAndF (v : Value) (c : Bool) : Outputs := { y := some v, f := some c }

/-- A command that writes Y and Z (R85). -/
def yAndZ (q r : Value) : Outputs := { y := some q, z := some r }

/-- A command that writes F alone (R85). -/
def fOnly (c : Bool) : Outputs := { f := some c }

/-- A command that writes ORD alone (R85). -/
def ordOnly (o : BitVec 2) : Outputs := { ord := some o }

/-- A command without an operand condition: it completes. -/
def writeOutputs (o : Outputs) (s : State) : Host.Outcome State Fault Refusal := .next (s.complete o)

/-- A shift command (R100): the count is tested first. -/
def shiftCommand (shift : Value → Nat → Value) (s : State) : Host.Outcome State Fault Refusal :=
  if 128 ≤ opCount s then .next (s.raiseFault .shiftRange)
  else .next (s.complete (yOnly (shift (opA s) (opCount s))))

/-- A divide or remainder command (R191): the divisor is tested first. -/
def divideCommand (result : Value → Value → Outputs) (s : State) : Host.Outcome State Fault Refusal :=
  if (opB s).toNat = 0 then .next (s.raiseFault .divZero)
  else .next (s.complete (result (opA s) (opB s)))

/-- A host read of a register (R37, R309): it changes nothing (R65), and gives no bits where the register holds no value.
STATUS is read as its 8 bits, zero-extended (log 10). -/
def hostRead (r : OutReg) (s : State) : Except Fault HostVal :=
  match r with
  | .y =>
    match s.y with
    | some v => .ok (.value v)
    | none => .error (.readNoValue .y)
  | .z =>
    match s.z with
    | some v => .ok (.value v)
    | none => .error (.readNoValue .z)
  | .f =>
    match s.f with
    | some b => .ok (.bit b)
    | none => .error (.readNoValue .f)
  | .ord =>
    match s.ord with
    | some o => .ok (.order o)
    | none => .error (.readNoValue .ord)
  | .status => .ok (.value (s.status.setWidth 128))

/-- The host's line counter moves past the line (R345). -/
def State.advance (s : State) : State := { s with line := s.line + 1 }

/-- The host's fault mark is set (R345). -/
def State.setMark (s : State) : State := { s with mark := true }

/-- A host variable takes a value, or no value (R345). -/
def State.setVar (n : Nat) (v : Option HostVal) (s : State) : State := { s with vars := varsSet s.vars n v }

/-- Copy one register into one variable; a read fault leaves the variable without a value and sets the mark (R37,
log 6). -/
def copyRegister (r : OutReg) (n : Nat) (s : State) : State :=
  match hostRead r s with
  | .ok v => s.setVar n (some v)
  | .error _ => (s.setVar n none).setMark

/-- Copy the named registers into the destination variables, in the line's order (R345, log 10). -/
def copyRegisters (dsts : List (OutReg × Nat)) (s : State) : State :=
  match dsts with
  | [] => s
  | (r, n) :: rest => copyRegisters rest (copyRegister r n s)

/-- Every destination gets no value (R345). -/
def clearDestinations (dsts : List (OutReg × Nat)) (s : State) : State :=
  match dsts with
  | [] => s
  | (_, n) :: rest => clearDestinations rest (s.setVar n none)

/-- The host's part of a command line, once the command has completed (R345): after a fault every destination gets no value
and the mark is set. -/
def collectResults (dsts : List (OutReg × Nat)) (s : State) : State :=
  if statusFault s.status then (clearDestinations dsts s).setMark else copyRegisters dsts s

end Sys2Proof.Machine
end

