-- ==== Sys2Proof/Machine/AddSub.lean ====
section
/-! DEFINITION. The add and subtract family (42_add_sub.md): the two 64-bit primitives and the 128-bit carry chains. -/

namespace Sys2Proof.Machine

/-- The 128-bit carry chain (R131): the carry crosses from the low word to the high one, the last carry is discarded. -/
def addValues (a b : Value) : Value :=
  let (l, c) := addWithCarry false (lo a) (lo b)
  let (h, _) := addWithCarry c (hi a) (hi b)
  pair l h

/-- The 128-bit borrow chain (R141). -/
def subValues (a b : Value) : Value :=
  let (l, c) := subWithBorrow false (lo a) (lo b)
  let (h, _) := subWithBorrow c (hi a) (hi b)
  pair l h

/-- ADD (R131). -/
def execAdd (s : State) : Host.Outcome State Fault Refusal := writeOutputs (yOnly (addValues (opA s) (opB s))) s

/-- ADC64 (R130): the high words are ignored and `Y.hi` is 0 (D27). -/
def execAdc64 (s : State) : Host.Outcome State Fault Refusal :=
  let (t, c) := addWithCarry (opCin s) (lo (opA s)) (lo (opB s))
  writeOutputs (yAndF (pair t 0) c) s

/-- INC (R132): R131 with B = `(1, 0)`. -/
def execInc (s : State) : Host.Outcome State Fault Refusal := writeOutputs (yOnly (addValues (opA s) (pair 1 0))) s

/-- SUB (R141). -/
def execSub (s : State) : Host.Outcome State Fault Refusal := writeOutputs (yOnly (subValues (opA s) (opB s))) s

/-- SBB64 (R140): CIN is the borrow in. -/
def execSbb64 (s : State) : Host.Outcome State Fault Refusal :=
  let (t, c) := subWithBorrow (opCin s) (lo (opA s)) (lo (opB s))
  writeOutputs (yAndF (pair t 0) c) s

/-- DEC (R142): R141 with B = `(1, 0)`. -/
def execDec (s : State) : Host.Outcome State Fault Refusal := writeOutputs (yOnly (subValues (opA s) (pair 1 0))) s

/-- NEG (R143): R141 with minuend `(0, 0)` and subtrahend A. -/
def execNeg (s : State) : Host.Outcome State Fault Refusal := writeOutputs (yOnly (subValues (pair 0 0) (opA s))) s

end Sys2Proof.Machine
end

