-- ==== Sys2Proof/Machine/Compare.lean ====
section
/-! DEFINITION. The comparator (46_compare_convert.md R260 to R264). -/

namespace Sys2Proof.Machine

/-- CMPU (R260). -/
def execCmpu (s : State) : Host.Outcome State Fault Refusal := writeOutputs (ordOnly (orderUnsigned (opA s) (opB s))) s

/-- CMPS (R261). -/
def execCmps (s : State) : Host.Outcome State Fault Refusal := writeOutputs (ordOnly (orderSigned (opA s) (opB s))) s

/-- TEST (R264). -/
def execTest (s : State) : Host.Outcome State Fault Refusal := writeOutputs (fOnly (truthValue (opA s))) s

end Sys2Proof.Machine
end

