-- ==== Sys2Proof/Machine/Convert.lean ====
section
/-! DEFINITION. The conversions (46_compare_convert.md R265 to R272). -/

namespace Sys2Proof.Machine

/-- `sext_128(A[w-1:0])` (R267): the copy into the low word sign-extends too (90_conflicts.md C5). -/
def signExtendNative (w : NativeWidth) (a : Value) : Value := (nativeBits w a).signExtend 128

/-- `zext_128(A[w-1:0])` (R269). -/
def zeroExtendNative (w : NativeWidth) (a : Value) : Value := (nativeBits w a).setWidth 128

/-- `Y[w-1:0] <- A[w-1:0]`, `Y[127:w] <- 0` (R271, D21). -/
def truncateToNative (w : NativeWidth) (a : Value) : Value := (nativeBits w a).setWidth 128

/-- SEXT.w (R267). -/
def execSext (w : NativeWidth) (s : State) : Host.Outcome State Fault Refusal :=
  writeOutputs (yOnly (signExtendNative w (opA s))) s

/-- ZEXT.w (R269). -/
def execZext (w : NativeWidth) (s : State) : Host.Outcome State Fault Refusal :=
  writeOutputs (yOnly (zeroExtendNative w (opA s))) s

/-- TRUNC.w (R271). -/
def execTrunc (w : NativeWidth) (s : State) : Host.Outcome State Fault Refusal :=
  writeOutputs (yOnly (truncateToNative w (opA s))) s

end Sys2Proof.Machine
end

