-- ==== Sys2Proof/Machine/Divide.lean ====
section
/-! DEFINITION. The divide family (44_divide.md): the contract R190 that every path must meet, and the two operations. The
paths themselves stand in DividePaths.lean. -/

namespace Sys2Proof.Machine

/-- The quotient and remainder of R190, for a divisor that is not 0. -/
def divideExact (a b : Value) : Value × Value :=
  let q : Nat := a.toNat / b.toNat
  let r : Nat := a.toNat - q * b.toNat
  (BitVec.ofNat 128 q, BitVec.ofNat 128 r)

/-- DIVU (R192): quotient to Y, remainder to Z; DIV_ZERO where B = 0. Which path of R194 computes them is not observable
(R40, U6, log 12). -/
def execDivu (s : State) : Host.Outcome State Fault Refusal :=
  divideCommand (fun a b => yAndZ (divideExact a b).1 (divideExact a b).2) s

/-- REMU (R193): the remainder to Y; the quotient is discarded. -/
def execRemu (s : State) : Host.Outcome State Fault Refusal :=
  divideCommand (fun a b => yOnly (divideExact a b).2) s

end Sys2Proof.Machine
end

