-- ==== Sys2Proof/Machine/Multiply.lean ====
section
/-! DEFINITION. The multiply family (43_multiply.md): the exact 64 by 64 product, the schoolbook path that must give the
same bits (R171), and the truncating 128-bit product. -/

namespace Sys2Proof.Machine

/-- `widening_multiply_64` (R170): the exact product, as a word pair. -/
def wideProduct (a b : Word64) : Value :=
  let p : Nat := a.toNat * b.toNat
  pair (BitVec.ofNat 64 p) (BitVec.ofNat 64 (p / 2 ^ 64))

/-- The portable path (R171): four partial products of 32-bit digits, accumulated with carry propagation. -/
def schoolbookProduct (a b : Word64) : Value :=
  let base := Config.digitBase
  let a0 := digitNat a.toNat 0
  let a1 := digitNat a.toNat 1
  let b0 := digitNat b.toNat 0
  let b1 := digitNat b.toNat 1
  let p00 := a0 * b0
  let p01 := a0 * b1
  let p10 := a1 * b0
  let p11 := a1 * b1
  let mid := p00 / base + p01 % base + p10 % base
  pair (BitVec.ofNat 64 (p00 % base + mid % base * base))
    (BitVec.ofNat 64 (p11 + p01 / base + p10 / base + mid / base))

/-- The multiplier on the path that PATH and HAS_FAST_PATH select (R40, R170): `fast` is their conjunction. -/
def multiplierByPath (fast : Bool) (a b : Word64) : Value :=
  if fast then wideProduct a b else schoolbookProduct a b

/-- The truncating product (R172): the low words' exact product, plus each cross product truncated to 64 bits. -/
def mulValues (a b : Value) : Value :=
  let p := wideProduct (lo a) (lo b)
  pair (lo p) (BitVec.ofNat 64 ((hi p).toNat + (lo a).toNat * (hi b).toNat + (hi a).toNat * (lo b).toNat))

/-- WMUL64 (R170). -/
def execWmul64 (s : State) : Host.Outcome State Fault Refusal :=
  writeOutputs (yOnly (wideProduct (lo (opA s)) (lo (opB s)))) s

/-- MUL (R172). -/
def execMul (s : State) : Host.Outcome State Fault Refusal := writeOutputs (yOnly (mulValues (opA s) (opB s))) s

end Sys2Proof.Machine
end

