-- ==== Sys2Proof/Machine/Shift.lean ====
section
/-! DEFINITION. The shift family (41_shift.md), word by word as the spec's pseudocode has it. -/

namespace Sys2Proof.Machine

/-- Left shift by k < 128 (R101). -/
def shiftLeftWords (a : Value) (k : Nat) : Value :=
  if k = 0 then a
  else if k < 64 then pair (lo a <<< k) ((hi a <<< k) ||| (lo a >>> (64 - k)))
  else pair 0 (lo a <<< (k - 64))

/-- Unsigned right shift by k < 128 (R102). -/
def shiftRightWords (a : Value) (k : Nat) : Value :=
  if k = 0 then a
  else if k < 64 then pair ((lo a >>> k) ||| (hi a <<< (64 - k))) (hi a >>> k)
  else pair (hi a >>> (k - 64)) 0

/-- FILL of R103: the original sign bit in every bit of a word. -/
def signFill (a : Value) : Word64 := if a.msb then 0xFFFFFFFFFFFFFFFF#64 else 0x0000000000000000#64

/-- Signed right shift by k < 128 (R103): the vacated word is filled with the sign (90_conflicts.md C2). -/
def shiftRightSignedWords (a : Value) (k : Nat) : Value :=
  if k = 0 then a
  else if k < 64 then pair ((lo a >>> k) ||| (hi a <<< (64 - k))) ((hi a).sshiftRight k)
  else pair ((hi a).sshiftRight (k - 64)) (signFill a)

/-- SHL (R101). -/
def execShl (s : State) : Host.Outcome State Fault Refusal := shiftCommand shiftLeftWords s

/-- SHRL (R102). -/
def execShrl (s : State) : Host.Outcome State Fault Refusal := shiftCommand shiftRightWords s

/-- SHRA (R103). -/
def execShra (s : State) : Host.Outcome State Fault Refusal := shiftCommand shiftRightSignedWords s

end Sys2Proof.Machine
end

