-- ==== Sys2Proof/Machine/Signed.lean ====
section
/-! DEFINITION. The signed wrapper (45_signed_wrapper.md): strip the signs (R230), run the unsigned core, apply a sign. The
quotient and the product take the combined parity, the remainder the dividend's sign (90_conflicts.md C1). -/

namespace Sys2Proof.Machine

/-- `par`, the combined negation parity of R230. -/
def signParity (a b : Value) : Bool := a.msb ^^ b.msb

/-- `neg(v)` if the sign to apply is negative, else `v` (R232, R234, R235). -/
def applySign (negative : Bool) (v : Value) : Value := if negative then negValue v else v

/-- The signed product (R232). -/
def mulSigned (a b : Value) : Value := applySign (signParity a b) (mulValues (absValue a) (absValue b))

/-- The signed quotient and remainder (R234), for a divisor that is not 0. -/
def divideSigned (a b : Value) : Value × Value :=
  let (q, r) := divideExact (absValue a) (absValue b)
  (applySign (signParity a b) q, applySign a.msb r)

/-- MULS (R232). -/
def execMuls (s : State) : Host.Outcome State Fault Refusal := writeOutputs (yOnly (mulSigned (opA s) (opB s))) s

/-- DIVS (R234): quotient to Y, remainder to Z; SMIN / -1 = SMIN (R236). -/
def execDivs (s : State) : Host.Outcome State Fault Refusal :=
  divideCommand (fun a b => yAndZ (divideSigned a b).1 (divideSigned a b).2) s

/-- REMS (R235): the remainder to Y. -/
def execRems (s : State) : Host.Outcome State Fault Refusal :=
  divideCommand (fun a b => yOnly (divideSigned a b).2) s

end Sys2Proof.Machine
end

