-- ==== Sys2Proof/Machine/Dispatch.lean ====
section
/-! DEFINITION. The case of R88 (30_encoding.md): one arm per operation, each a call of its meaning. -/

namespace Sys2Proof.Machine

def exec (i : Instr) (s : State) : Host.Outcome State Fault Refusal :=
  match i with
  | .add => Sys2Proof.Machine.execAdd s
  | .adc64 => Sys2Proof.Machine.execAdc64 s
  | .inc => Sys2Proof.Machine.execInc s
  | .sub => Sys2Proof.Machine.execSub s
  | .sbb64 => Sys2Proof.Machine.execSbb64 s
  | .dec => Sys2Proof.Machine.execDec s
  | .neg => Sys2Proof.Machine.execNeg s
  | .wmul64 => Sys2Proof.Machine.execWmul64 s
  | .mul => Sys2Proof.Machine.execMul s
  | .divu => Sys2Proof.Machine.execDivu s
  | .remu => Sys2Proof.Machine.execRemu s
  | .shl => Sys2Proof.Machine.execShl s
  | .shrl => Sys2Proof.Machine.execShrl s
  | .shra => Sys2Proof.Machine.execShra s
  | .cmpu => Sys2Proof.Machine.execCmpu s
  | .cmps => Sys2Proof.Machine.execCmps s
  | .test => Sys2Proof.Machine.execTest s
  | .muls => Sys2Proof.Machine.execMuls s
  | .divs => Sys2Proof.Machine.execDivs s
  | .rems => Sys2Proof.Machine.execRems s
  | .sext w => Sys2Proof.Machine.execSext w s
  | .zext w => Sys2Proof.Machine.execZext w s
  | .trunc w => Sys2Proof.Machine.execTrunc w s

end Sys2Proof.Machine
end

