-- ==== Sys2Proof/Machine/Command.lean ====
section
/-! DEFINITION. One command (30_encoding.md R88): decode the word presented, then run its operation. -/

namespace Sys2Proof.Machine

/-- Execute of R88 on the inputs that stand at the ports. An illegal word raises ILLEGAL_OP before any operand is read
(R86, R303). -/
def runCommand (s : State) : Host.Outcome State Fault Refusal :=
  match decode s.inp.cmd with
  | .error _ => .next (s.raiseFault .illegalOp)
  | .ok i => exec i s

/-- The host presents the inputs of a command (R31). -/
def State.present (inp : Inputs) (s : State) : State := { s with inp := inp }

end Sys2Proof.Machine
end

