-- ==== Sys2Proof/Machine/HostLines.lean ====
section
/-! DEFINITION. The lines of a host program (70_reset_and_hazards.md R343, R345). -/

namespace Sys2Proof.Machine

/-- A line that reads a variable with no value: the mark is set and the line has no effect (R345, log 7). -/
def lineWithoutEffect (s : State) : State := s.setMark.advance

/-- `dsts <- OP operands` (R345): present the inputs, run the command to completion, copy the results. -/
def runIssue (c : CmdLine) (s : State) : Host.Outcome State Fault Refusal :=
  match presentedInputs c s.vars with
  | none => .next (lineWithoutEffect s)
  | some inp =>
    match runCommand (s.present inp) with
    | .next t => .next (collectResults c.dsts t).advance
    | .fault r => .fault r
    | .refused r => .refused r

/-- `dst <- src` (R345). -/
def runCopy (dst : Nat) (src : Src HostVal) (s : State) : State :=
  match srcAny src s.vars with
  | none => lineWithoutEffect s
  | some v => (s.setVar dst (some v)).advance

/-- A test that moves the line counter (R345): to `onTrue` or `onFalse`; without a value to test, past the line. -/
def runTest (t : HostTest) (onTrue onFalse : Nat) (s : State) : State :=
  match testHolds t s.vars with
  | none => lineWithoutEffect s
  | some true => { s with line := onTrue }
  | some false => { s with line := onFalse }

/-- One host line (R343, R345). A `while` line only chooses between its body and its exit: the body's last line goes
on to the exit line like any other line, and a loop needs a `goto` back (the model's choice, log 9). -/
def runLine (l : Line) (s : State) : Host.Outcome State Fault Refusal :=
  match l with
  | .issue c => runIssue c s
  | .read dst r => .next (copyRegister r dst s).advance
  | .copy dst src => .next (runCopy dst src s)
  | .reset => .next s.applyReset.advance
  | .goto target => .next { s with line := target }
  | .ifGoto t target => .next (runTest t target (s.line + 1) s)
  | .whileDo t exit => .next (runTest t (s.line + 1) exit s)

/-- The line the host runs next; none when its counter has passed the last line (R345). -/
def fetchLine (s : State) : Option Line := s.prog[s.line]?

/-- The line that issues a command word with the inputs that stand at the ports. -/
def issuePresented (word : BitVec 16) (inp : Inputs) : Line :=
  .issue { word := word, a := .lit inp.a, b := .lit inp.b, cnt := .lit inp.cnt, cin := .lit inp.cin, path := inp.path }

/-- The host's program is the one line that issues this command word, about to run (log 2). -/
def loadWord (word : BitVec 16) (s : State) : State := { s with prog := [issuePresented word s.inp], line := 0 }

end Sys2Proof.Machine
end

