-- ==== Sys2Proof/Machine/Step.lean ====
section
/-! DEFINITION. One step: the host runs its next line, and CORE128 the command that line issues (10_state.md R30,
70_reset_and_hazards.md R345). -/

namespace Sys2Proof.Machine

/-- With no line left, CORE128 waits and holds its registers (R341, R314, log 3). -/
def step (s : State) : Host.Outcome State Fault Refusal :=
  match fetchLine s with
  | none => .next s
  | some l => runLine l s

/-- The state in which the next step issues this command word, with the operands as they stand at the ports (log 2). -/
def State.withFetchWord (s : State) (nbits w : Nat) : State := loadWord (BitVec.ofNat 16 (w % 2 ^ nbits)) s

end Sys2Proof.Machine
end

