-- ==== Sys2Proof/Machine/DividePaths.lean ====
section
/-! DEFINITION. How the divider reaches its contract (44_divide.md R194 to R203): the dispatch ladder, the one-digit and the
64-bit-divisor routines, and Knuth's Algorithm D in base 2^32. No path can change a result (R40). -/

namespace Sys2Proof.Machine

/-- The paths of R194. -/
inductive DividePath where
  | dHw
  | d1
  | d2
  | dG
deriving DecidableEq, Repr

/-- The dispatch ladder (R194), for a divisor that is not 0: `fast` says that PATH = 1 and a 128 by 64 fast path exists. -/
def dividePath (fast : Bool) (b : Value) : DividePath :=
  if hi b ≠ 0 then .dG
  else if fast then .dHw
  else if (lo b).toNat < Config.digitBase then .d1
  else .d2

/-- The digits of `n` below index `count`, least significant first (R9). -/
def digitsOf (n count : Nat) : List Nat := (List.range count).map (digitNat n)

/-- The number a list of digits stands for, least significant first. -/
def digitsValue (ds : List Nat) : Nat :=
  match ds with
  | [] => 0
  | d :: rest => d + Config.digitBase * digitsValue rest

/-- The 64 by 32 steps of R195, from the most significant digit: the quotient digits so far as one number, and the running
remainder. -/
def oneDigitSteps (d : Nat) (digits : List Nat) (q rem : Nat) : Nat × Nat :=
  match digits with
  | [] => (q, rem)
  | x :: rest =>
    let t := rem * Config.digitBase + x
    oneDigitSteps d rest (q * Config.digitBase + t / d) (t % d)

/-- Path D-1 (R195): the digits i = 3 down to 0 against a one-digit divisor. -/
def divideOneDigit (a b : Value) : Value × Value :=
  let (q, r) := oneDigitSteps (lo b).toNat (digitsOf a.toNat 4).reverse 0 0
  (BitVec.ofNat 128 q, BitVec.ofNat 128 r)

/-- Paths D-HW and D-2 (R196): two 128 by 64 steps against a 64-bit divisor, the high word first. -/
def divideTwoSteps (a b : Value) : Value × Value :=
  let d := (lo b).toNat
  let qHi := (hi a).toNat / d
  let r1 := (hi a).toNat % d
  let t := r1 * 2 ^ 64 + (lo a).toNat
  let qLo := t / d
  let r := t % d
  (BitVec.ofNat 128 (qHi * 2 ^ 64 + qLo), BitVec.ofNat 128 r)

/-- `n` of R197: the number of digits up to the highest nonzero one (1 for 0, which no path sees). -/
def digitCount (b : Nat) : Nat :=
  if digitNat b 3 ≠ 0 then 4 else if digitNat b 2 ≠ 0 then 3 else if digitNat b 1 ≠ 0 then 2 else 1

/-- `clz32(x)`, for a 32-bit x that is not 0 (R8). -/
def clz32 (x : Nat) : Nat := 31 - Nat.log2 x

/-- The normalization shift `s` of R197. -/
def normShift (b : Nat) : Nat := clz32 (digitNat b (digitCount b - 1))

/-- `vn`, the normalized divisor digits (R197). -/
def normDivisor (b : Nat) : List Nat := digitsOf (b * 2 ^ normShift b) (digitCount b)

/-- `un`, the five normalized numerator digits, the last one the extra digit (R197). -/
def normNumerator (a b : Nat) : List Nat := digitsOf (a * 2 ^ normShift b) 5

/-- The trial quotient digit and its remainder, of a two-digit slice by the divisor's top digit (R198). -/
def trialDigit (slice top : Nat) : Nat × Nat := (slice / top, slice % top)

/-- The correction loop (R199). `fuel` bounds the decrements: two are enough, since each adds a top digit of at least 2^31
to rhat and the loop ends at 2^32 (log 13). -/
def correctDigit (top second next : Nat) (fuel : Nat) (qhat rhat : Nat) : Nat × Nat :=
  match fuel with
  | 0 => (qhat, rhat)
  | k + 1 =>
    if Config.digitBase ≤ qhat ∨ rhat * Config.digitBase + next < qhat * second then
      if Config.digitBase ≤ rhat + top then (qhat - 1, rhat + top)
      else correctDigit top second next k (qhat - 1) (rhat + top)
    else (qhat, rhat)

/-- Multiply and subtract (R200) on the window `un[j .. j+n]`, digit by digit: the new window and the last borrow. -/
def multiplySubtract (qhat : Nat) (vn window : List Nat) (carry borrow : Nat) : List Nat × Nat :=
  match vn, window with
  | v :: vs, u :: us =>
    let p := qhat * v + carry
    let t : Int := (u : Int) - ((p % Config.digitBase : Nat) : Int) - (borrow : Int)
    let (rest, last) := multiplySubtract qhat vs us (p / Config.digitBase) (if t < 0 then 1 else 0)
    ((t % (Config.digitBase : Int)).toNat :: rest, last)
  | [], u :: us =>
    let t : Int := (u : Int) - (carry : Int) - (borrow : Int)
    ((t % (Config.digitBase : Int)).toNat :: us, if t < 0 then 1 else 0)
  | _, [] => ([], borrow)

/-- Add the divisor back into the window (R201). -/
def addBack (vn window : List Nat) (carry : Nat) : List Nat :=
  match vn, window with
  | v :: vs, u :: us =>
    let t := u + v + carry
    t % Config.digitBase :: addBack vs us (t / Config.digitBase)
  | [], u :: us => (u + carry) % Config.digitBase :: us
  | _, [] => []

/-- The trial digit after correction, for quotient digit j (R198, R199): `n ≥ 2` divisor digits. -/
def estimateDigit (vn un : List Nat) (j : Nat) : Nat :=
  let n := vn.length
  let top := vn.getD (n - 1) 0
  let slice := un.getD (j + n) 0 * Config.digitBase + un.getD (j + n - 1) 0
  let (qhat, rhat) := trialDigit slice top
  (correctDigit top (vn.getD (n - 2) 0) (un.getD (j + n - 2) 0) 3 qhat rhat).1

/-- One quotient digit (R198 to R201): the numerator digits after it, and the stored digit. -/
def quotientDigit (vn un : List Nat) (j : Nat) : List Nat × Nat :=
  let n := vn.length
  let qhat := estimateDigit vn un j
  let window := (un.drop j).take (n + 1)
  let (sub, borrow) := multiplySubtract qhat vn window 0 0
  let (window', digit) := if borrow = 1 then (addBack vn sub 0, qhat - 1) else (sub, qhat)
  (un.take j ++ window' ++ un.drop (j + n + 1), digit)

/-- The digits j, j - 1, ..., 0 (R198): the numerator left, and the sum of `qd[j] * 2^(32*j)` (R202). -/
def quotientDigits (vn un : List Nat) (j : Nat) (q : Nat) : List Nat × Nat :=
  let (un', digit) := quotientDigit vn un j
  let q' := q + digit * Config.digitBase ^ j
  match j with
  | 0 => (un', q')
  | k + 1 => quotientDigits vn un' k q'

/-- Algorithm D (R197 to R202), for a divisor of at least two digits: the quotient, and the low n digits of what is left
of the numerator, shifted right by the normalization shift. -/
def algorithmD (a b : Value) : Value × Value :=
  let n := digitCount b.toNat
  let s := normShift b.toNat
  let (un, q) := quotientDigits (normDivisor b.toNat) (normNumerator a.toNat b.toNat) (4 - n) 0
  (BitVec.ofNat 128 q, BitVec.ofNat 128 (digitsValue (un.take n) / 2 ^ s))

/-- The divider on the path of R194: `fast` as in `dividePath`, `twoDigit` whether D-2 runs Algorithm D, `early` whether the
early exit of R203 is taken where it may be. -/
def dividerWith (fast twoDigit early : Bool) (a b : Value) : Value × Value :=
  if early = true ∧ a.toNat < b.toNat then (0, a)
  else
    match dividePath fast b with
    | .dHw => divideTwoSteps a b
    | .d1 => divideOneDigit a b
    | .d2 => if twoDigit then algorithmD a b else divideTwoSteps a b
    | .dG => algorithmD a b

/-- The divider of this implementation, for one value of PATH (R40, R194, R203; log 12). -/
def divider (path : Bool) (a b : Value) : Value × Value :=
  dividerWith (path && Config.hasFastPath) Config.twoDigitByAlgorithmD (Config.earlyExit a b) a b

end Sys2Proof.Machine
end

