-- ==== Sys2Proof/Machine/Assembler.lean ====
section
/-! DEFINITION. The written form of a command and of a host program (30_encoding.md R89): which operands each operation
takes, which registers its destinations name (R85), and a reader of program text. Text is a list of characters. -/

namespace Sys2Proof.Machine

/-- The operand lists of R89. -/
inductive AsmShape where
  /-- `a, b` -/
  | ab
  /-- `a, b, cin` -/
  | abCin
  /-- `a` -/
  | a
  /-- `a, cnt` -/
  | aCnt
deriving DecidableEq, Repr

/-- The operands an operation is written with (R89). -/
def asmShape (i : Instr) : AsmShape :=
  match i with
  | .add | .sub | .mul | .muls | .wmul64 | .divu | .remu | .divs | .rems | .cmpu | .cmps => .ab
  | .adc64 | .sbb64 => .abCin
  | .inc | .dec | .neg | .test | .sext _ | .zext _ | .trunc _ => .a
  | .shl | .shrl | .shra => .aCnt

/-- The registers an operation writes (R85), in the order in which its destinations name them (R89). -/
def writtenRegs (i : Instr) : List OutReg :=
  match i with
  | .add | .inc | .sub | .dec | .neg | .wmul64 | .mul | .muls | .remu | .rems | .shl | .shrl | .shra | .sext _ | .zext _
  | .trunc _ => [.y]
  | .adc64 | .sbb64 => [.y, .f]
  | .divu | .divs => [.y, .z]
  | .cmpu | .cmps => [.ord]
  | .test => [.f]

/-- The operands of a written command (R89). -/
structure AsmOperands where
  a : Src Value := .lit 0
  b : Src Value := .lit 0
  cnt : Src (BitVec 32) := .lit 0
  cin : Src Bool := .lit false
deriving DecidableEq, Repr

/-- The command line `dsts <- i operands` (R89). A written command says nothing of PATH, which no result depends on: it is
presented as 0 (log 14). -/
def commandLine (i : Instr) (o : AsmOperands) (dsts : List Nat) : CmdLine :=
  { word := encode i, a := o.a, b := o.b, cnt := o.cnt, cin := o.cin, path := false, dsts := (writtenRegs i).zip dsts }

/-- The suffix of a width (R89). -/
def widthSuffix (w : NativeWidth) : List Char :=
  match w with
  | .w8 => ['.', '8']
  | .w16 => ['.', '1', '6']
  | .w32 => ['.', '3', '2']
  | .w64 => ['.', '6', '4']

/-- The mnemonic of an instruction, with its width (R89). -/
def asmName (i : Instr) : List Char :=
  match i with
  | .add => ['A', 'D', 'D']
  | .adc64 => ['A', 'D', 'C', '6', '4']
  | .inc => ['I', 'N', 'C']
  | .sub => ['S', 'U', 'B']
  | .sbb64 => ['S', 'B', 'B', '6', '4']
  | .dec => ['D', 'E', 'C']
  | .neg => ['N', 'E', 'G']
  | .wmul64 => ['W', 'M', 'U', 'L', '6', '4']
  | .mul => ['M', 'U', 'L']
  | .divu => ['D', 'I', 'V', 'U']
  | .remu => ['R', 'E', 'M', 'U']
  | .shl => ['S', 'H', 'L']
  | .shrl => ['S', 'H', 'R', 'L']
  | .shra => ['S', 'H', 'R', 'A']
  | .cmpu => ['C', 'M', 'P', 'U']
  | .cmps => ['C', 'M', 'P', 'S']
  | .test => ['T', 'E', 'S', 'T']
  | .muls => ['M', 'U', 'L', 'S']
  | .divs => ['D', 'I', 'V', 'S']
  | .rems => ['R', 'E', 'M', 'S']
  | .sext w => ['S', 'E', 'X', 'T'] ++ widthSuffix w
  | .zext w => ['Z', 'E', 'X', 'T'] ++ widthSuffix w
  | .trunc w => ['T', 'R', 'U', 'N', 'C'] ++ widthSuffix w

/-- Mnemonics are case-insensitive (R89). -/
def upperCase (cs : List Char) : List Char := cs.map Char.toUpper

/-- The instruction a mnemonic names (R89). -/
def instrOfName (cs : List Char) : Option Instr := allInstrs.find? (fun i => asmName i == upperCase cs)

/-- The comparisons among the pseudo-instructions (R90). -/
inductive Pseudo where
  | eq
  | ne
  | ltu
  | lts
  | leu
  | les
  | gtu
  | gts
  | geu
  | ges
deriving DecidableEq, Repr

/-- The command a comparison expands to (R90). -/
def pseudoInstr (p : Pseudo) : Instr :=
  match p with
  | .eq | .ne | .ltu | .leu | .gtu | .geu => .cmpu
  | .lts | .les | .gts | .ges => .cmps

/-- The host test on ORD a comparison expands to (R90), on the variable ORD was copied to. -/
def pseudoTest (p : Pseudo) (ordVar : Nat) : HostTest :=
  match p with
  | .eq => { var := ordVar, rel := .eq, lit := .order ordEQ }
  | .ne => { var := ordVar, rel := .ne, lit := .order ordEQ }
  | .ltu | .lts => { var := ordVar, rel := .eq, lit := .order ordLT }
  | .leu | .les => { var := ordVar, rel := .ne, lit := .order ordGT }
  | .gtu | .gts => { var := ordVar, rel := .eq, lit := .order ordGT }
  | .geu | .ges => { var := ordVar, rel := .ne, lit := .order ordLT }

/-- `if EQ a, b goto target` and the like (R90): compare into `ordVar`, then test it. -/
def pseudoBranch (p : Pseudo) (a b : Src Value) (ordVar target : Nat) : List Line :=
  [.issue (commandLine (pseudoInstr p) { a := a, b := b } [ordVar]), .ifGoto (pseudoTest p ordVar) target]

/-- The pseudo-instructions that are another name of a command (R90): MULW, SHLS, CVTB. They are read where a mnemonic is
(log 16). -/
def pseudoAlias (cs : List Char) : Option Instr :=
  let u := upperCase cs
  if u = ['M', 'U', 'L', 'W'] then some .mul
  else if u = ['S', 'H', 'L', 'S'] then some .shl
  else if u = ['C', 'V', 'T', 'B'] then some .test
  else none

/-- A character of a name or a number. -/
def isWordChar (c : Char) : Bool := c.isAlphanum || c == '.'

/-- A word read so far, in reverse, put before the lexemes that follow it. -/
def flushWord (cur : List Char) (rest : List (List Char)) : List (List Char) :=
  match cur with
  | [] => rest
  | c :: cs => (c :: cs).reverse :: rest

/-- The lexemes of a line: words, and single punctuation characters. Two hyphens start a comment (95 P3). -/
def lexLine (cs : List Char) (cur : List Char) : List (List Char) :=
  match cs with
  | [] => flushWord cur []
  | '-' :: '-' :: _ => flushWord cur []
  | c :: rest =>
    if isWordChar c then lexLine rest (c :: cur)
    else if c.isWhitespace then flushWord cur (lexLine rest [])
    else flushWord cur ([c] :: lexLine rest [])

/-- The value of a digit, in either case. -/
def digitOfChar (c : Char) : Option Nat :=
  let u := c.toUpper
  if '0' ≤ u ∧ u ≤ '9' then some (u.toNat - '0'.toNat)
  else if 'A' ≤ u ∧ u ≤ 'F' then some (u.toNat - 'A'.toNat + 10)
  else none

/-- The number that digits stand for in a base, after `acc`. -/
def numberOfDigits (base : Nat) (cs : List Char) (acc : Nat) : Option Nat :=
  match cs with
  | [] => some acc
  | c :: rest =>
    match digitOfChar c with
    | some d => if d < base then numberOfDigits base rest (acc * base + d) else none
    | none => none

/-- A hexadecimal or decimal number (R89). -/
def numberOfLexeme (cs : List Char) : Option Nat :=
  match cs with
  | [] => none
  | '0' :: 'x' :: d :: rest => numberOfDigits 16 (d :: rest) 0
  | d :: rest => numberOfDigits 10 (d :: rest) 0

/-- A host variable `v0`, `v1`, ... (R89). -/
def variableOfLexeme (cs : List Char) : Option Nat :=
  match cs with
  | 'v' :: d :: rest => numberOfDigits 10 (d :: rest) 0
  | _ => none

/-- The target a label names. -/
def labelTarget (labels : List (List Char × Nat)) (l : List Char) : Option Nat :=
  match labels with
  | [] => none
  | (m, n) :: rest => if m = l then some n else labelTarget rest l

/-- A 128-bit operand at the head of the lexemes: a variable, a number, or a word pair `(lo, hi)` (R89), and no
pseudo-instruction of R90 (log 16). -/
def parseValue (ls : List (List Char)) : Option (Src Value × List (List Char)) :=
  match ls with
  | ['('] :: l :: [','] :: h :: [')'] :: rest =>
    match numberOfLexeme l, numberOfLexeme h with
    | some x, some y =>
      if x < 2 ^ 64 ∧ y < 2 ^ 64 then some (.lit (pair (BitVec.ofNat 64 x) (BitVec.ofNat 64 y)), rest) else none
    | _, _ => none
  | l :: rest =>
    match variableOfLexeme l, numberOfLexeme l with
    | some n, _ => some (.var n, rest)
    | none, some x => if x < 2 ^ 128 then some (.lit (BitVec.ofNat 128 x), rest) else none
    | none, none => none
  | [] => none

/-- A shift count, the last operand of its command. -/
def parseCount (l : List Char) : Option (Src (BitVec 32)) :=
  match variableOfLexeme l, numberOfLexeme l with
  | some n, _ => some (.var n)
  | none, some x => if x < 2 ^ 32 then some (.lit (BitVec.ofNat 32 x)) else none
  | none, none => none

/-- A carry or borrow operand, the last of its command. -/
def parseBit (l : List Char) : Option (Src Bool) :=
  match variableOfLexeme l, numberOfLexeme l with
  | some n, _ => some (.var n)
  | none, some 0 => some (.lit false)
  | none, some 1 => some (.lit true)
  | none, some _ => none
  | none, none => none

/-- The operands of a written command (R89); nothing may follow them. -/
def parseOperands (sh : AsmShape) (ls : List (List Char)) : Option AsmOperands :=
  match parseValue ls with
  | none => none
  | some (a, afterA) =>
    match sh with
    | .a => if afterA = [] then some { a := a } else none
    | .aCnt =>
      match afterA with
      | [[','], n] => (parseCount n).map (fun c => { a := a, cnt := c })
      | _ => none
    | .ab =>
      match afterA with
      | [','] :: more =>
        match parseValue more with
        | some (b, []) => some { a := a, b := b }
        | _ => none
      | _ => none
    | .abCin =>
      match afterA with
      | [','] :: more =>
        match parseValue more with
        | some (b, [[','], c]) => (parseBit c).map (fun ci => { a := a, b := b, cin := ci })
        | _ => none
      | _ => none

/-- The destinations before `<-`, and the lexemes after it. -/
def parseDestinations (ls : List (List Char)) : Option (List Nat × List (List Char)) :=
  match ls with
  | l :: ['<'] :: ['-'] :: rest => (variableOfLexeme l).map (fun n => ([n], rest))
  | l :: [','] :: rest =>
    match variableOfLexeme l, parseDestinations rest with
    | some n, some (ns, more) => some (n :: ns, more)
    | _, _ => none
  | _ => none

/-- `dst <- src`, with ZERO, PAIR, TOS and TOU, which issue no command (R90). R90 does not say where in a text
these may stand: that they are read here alone, as the whole source of a copy line, is the model's choice (log 16). -/
def parseCopy (dst : Nat) (ls : List (List Char)) : Option Line :=
  let lineOf := fun (r : Option (Src Value × List (List Char))) =>
    match r with
    | some (.var n, []) => some (Line.copy dst (.var n))
    | some (.lit v, []) => some (Line.copy dst (.lit (.value v)))
    | _ => none
  match ls with
  | [l] =>
    if upperCase l = ['Z', 'E', 'R', 'O'] then some (.copy dst (.lit (.value umin)))
    else if upperCase l = ['E', 'Q'] then some (.copy dst (.lit (.order ordEQ)))
    else if upperCase l = ['L', 'T'] then some (.copy dst (.lit (.order ordLT)))
    else if upperCase l = ['G', 'T'] then some (.copy dst (.lit (.order ordGT)))
    else lineOf (parseValue [l])
  | l :: rest =>
    if upperCase l = ['P', 'A', 'I', 'R'] then lineOf (parseValue (['('] :: rest ++ [[')']]))
    else if upperCase l = ['T', 'O', 'S'] ∨ upperCase l = ['T', 'O', 'U'] then lineOf (parseValue rest)
    else lineOf (parseValue (l :: rest))
  | [] => none

/-- The relation of a host test: `==`, `!=`, or a name of R90 (log 9). -/
def parseRel (ls : List (List Char)) : Option (Rel × List (List Char)) :=
  match ls with
  | ['='] :: ['='] :: rest => some (.eq, rest)
  | ['!'] :: ['='] :: rest => some (.ne, rest)
  | l :: rest =>
    let u := upperCase l
    if u = ['E', 'Q'] then some (.eq, rest)
    else if u = ['N', 'E'] then some (.ne, rest)
    else if u = ['L', 'T', 'U'] then some (.ltu, rest)
    else if u = ['L', 'E', 'U'] then some (.leu, rest)
    else if u = ['G', 'T', 'U'] then some (.gtu, rest)
    else if u = ['G', 'E', 'U'] then some (.geu, rest)
    else if u = ['L', 'T', 'S'] then some (.lts, rest)
    else if u = ['L', 'E', 'S'] then some (.les, rest)
    else if u = ['G', 'T', 'S'] then some (.gts, rest)
    else if u = ['G', 'E', 'S'] then some (.ges, rest)
    else none
  | [] => none

/-- The literal of a host test: an ORD value by its name, or a number or word pair (R345). -/
def parseTestLiteral (ls : List (List Char)) : Option (HostVal × List (List Char)) :=
  match ls with
  | [] => none
  | l :: rest =>
    if upperCase l = ['E', 'Q'] then some (.order ordEQ, rest)
    else if upperCase l = ['L', 'T'] then some (.order ordLT, rest)
    else if upperCase l = ['G', 'T'] then some (.order ordGT, rest)
    else
      match parseValue (l :: rest) with
      | some (.lit v, more) => some (.value v, more)
      | _ => none

/-- A host test, and the lexemes after it: a variable, a relation and a literal. The comparisons of R90 have no text form of
their own here (log 16): `pseudoBranch` gives their expansion. -/
def parseTest (ls : List (List Char)) : Option (HostTest × List (List Char)) :=
  match ls with
  | l :: rest =>
    match variableOfLexeme l, parseRel rest with
    | some n, some (r, more) => (parseTestLiteral more).map (fun p => ({ var := n, rel := r, lit := p.1 }, p.2))
    | _, _ => none
  | [] => none

/-- One line of program text, without its label (R89, R345). A control line names its target after `goto`, a `while` line the
label after its body after `else`, and the reader adds no jump back to it (log 9). -/
def parseLine (labels : List (List Char × Nat)) (ls : List (List Char)) : Option Line :=
  match ls with
  | [] => none
  | l :: rest =>
    if upperCase l = ['R', 'E', 'S', 'E', 'T'] ∧ rest = [] then some .reset
    else if upperCase l = ['G', 'O', 'T', 'O'] then
      match rest with
      | [t] => (labelTarget labels t).map .goto
      | _ => none
    else if upperCase l = ['I', 'F'] then
      match parseTest rest with
      | some (t, [g, m]) =>
        if upperCase g = ['G', 'O', 'T', 'O'] then (labelTarget labels m).map (.ifGoto t) else none
      | _ => none
    else if upperCase l = ['W', 'H', 'I', 'L', 'E'] then
      match parseTest rest with
      | some (t, [g, m]) =>
        if upperCase g = ['E', 'L', 'S', 'E'] then (labelTarget labels m).map (.whileDo t) else none
      | _ => none
    else
      match parseDestinations (l :: rest) with
      | none => none
      | some (_, []) => none
      | some (dsts, name :: operands) =>
        match (instrOfName name).or (pseudoAlias name) with
        | some i =>
          if dsts.length ≤ (writtenRegs i).length then
            (parseOperands (asmShape i) operands).map (fun o => .issue (commandLine i o dsts))
          else none
        | none =>
          match dsts with
          | [dst] => parseCopy dst (name :: operands)
          | _ => none

/-- The labels of a program text, by the number of the line each stands before; a line may hold a label alone. -/
def collectLabels (text : List (List (List Char))) (at_ : Nat) : List (List Char × Nat) :=
  match text with
  | [] => []
  | [] :: more => collectLabels more at_
  | [l, [':']] :: more => (l, at_) :: collectLabels more at_
  | (l :: [':'] :: _) :: more => (l, at_) :: collectLabels more (at_ + 1)
  | (_ :: _) :: more => collectLabels more (at_ + 1)

/-- The lines of a program text, its labels known. -/
def parseLines (labels : List (List Char × Nat)) (text : List (List (List Char))) : Option (List Line) :=
  match text with
  | [] => some []
  | [] :: more => parseLines labels more
  | [_, [':']] :: more => parseLines labels more
  | (_ :: [':'] :: ls) :: more =>
    match parseLine labels ls, parseLines labels more with
    | some l, some rest => some (l :: rest)
    | _, _ => none
  | (l :: ls) :: more =>
    match parseLine labels (l :: ls), parseLines labels more with
    | some x, some rest => some (x :: rest)
    | _, _ => none

/-- The host program a text stands for (R89), or none where the text is not one. -/
def assemble (text : List (List Char)) : Option (List Line) :=
  let lexed := text.map (fun cs => lexLine cs [])
  parseLines (collectLabels lexed 0) lexed

end Sys2Proof.Machine
end

