-- ==== Sys2Proof/WellFormed.lean ====
section
/-! DEFINITION. Well-formedness: of a command word (30_encoding.md R86), an instruction, a command line (its host reads only
registers its command writes, 70_reset_and_hazards.md R342) and a host program (its targets are lines of it or its end,
R345). -/

namespace Sys2Proof

open Machine

/-- A legal command word (R86, R87). -/
def wellFormedWord (cmd : BitVec 16) : Bool := !illegalWord cmd

/-- An instruction whose word is legal. Every term of `Instr` is (R87): the type holds no ill-formed one. -/
def wellFormedInstr (i : Instr) : Bool := wellFormedWord (encode i)

/-- A host reads STATUS after any command, and of the other registers only those the command writes (R342, R85). -/
def readable (word : BitVec 16) (r : OutReg) : Bool :=
  match decode word with
  | .error _ => r == .status
  | .ok i => r == .status || (writtenRegs i).contains r

/-- A command line: a legal word, and destinations that name registers it writes. -/
def wellFormedCommand (c : CmdLine) : Bool := wellFormedWord c.word && c.dsts.all (fun d => readable c.word d.1)

/-- A host line of a program of `size` lines. -/
def wellFormedLine (size : Nat) (l : Line) : Bool :=
  match l with
  | .issue c => wellFormedCommand c
  | .read _ _ => true
  | .copy _ (.lit (.order o)) => o != 3#2
  | .copy _ _ => true
  | .reset => true
  | .goto target => decide (target ≤ size)
  | .ifGoto _ target => decide (target ≤ size)
  | .whileDo _ exit => decide (exit ≤ size)

/-- A host program. -/
def wellFormedProgram (p : List Line) : Bool := p.all (wellFormedLine p.length)

end Sys2Proof
end

