-- ==== Sys2Proof/Safety.lean ====
section
/-! DEFINITION. The terms the claims use: the state a command leaves, the machine's invariant, a safe run, and which inputs
an operation reads. -/

namespace Sys2Proof.Claims

open Machine

/-- The state after a command that does not fault (R38, R39): the four output registers as given, FAULT and CAUSE 0, STICKY
as before, STATUS[7:4] 0, and nothing else changed. -/
def afterSuccess (s : State) (y z : Option Value) (f : Option Bool) (ord : Option (BitVec 2)) : State :=
  { s with y := y, z := z, f := f, ord := ord, status := s.status &&& 0x08#8 }

/-- The state after a faulting command (R302): no output has a value, STATUS is the byte given (0x0B ILLEGAL_OP, 0x0D
DIV_ZERO, 0x0F SHIFT_RANGE), and nothing else changed. -/
def afterFault (s : State) (status : BitVec 8) : State :=
  { s with y := none, z := none, f := none, ord := none, status := status }

/-- What Y holds after an outcome. -/
def resultY (o : Host.Outcome State Fault Refusal) : Option Value :=
  match o with
  | .next t => t.y
  | .fault _ => none
  | .refused _ => none

/-- What Z holds after an outcome. -/
def resultZ (o : Host.Outcome State Fault Refusal) : Option Value :=
  match o with
  | .next t => t.z
  | .fault _ => none
  | .refused _ => none

/-- What F holds after an outcome. -/
def resultF (o : Host.Outcome State Fault Refusal) : Option Bool :=
  match o with
  | .next t => t.f
  | .fault _ => none
  | .refused _ => none

/-- What ORD holds after an outcome. -/
def resultOrd (o : Host.Outcome State Fault Refusal) : Option (BitVec 2) :=
  match o with
  | .next t => t.ord
  | .fault _ => none
  | .refused _ => none

/-- The host issues operation `i` with these operands, from any state: what a law over commands speaks of. -/
def issueOn (i : Instr) (a b : Value) (cnt : BitVec 32) (cin : Bool) (s : State) :
    Host.Outcome State Fault Refusal :=
  runCommand (s.present { cmd := encode i, a := a, b := b, cnt := cnt, cin := cin, path := s.inp.path })

/-- Which of Y, Z, F and ORD hold a value. -/
def valuePattern (s : State) : Bool × Bool × Bool × Bool :=
  (s.y.isSome, s.z.isSome, s.f.isSome, s.ord.isSome)

/-- The patterns that R85's table allows, and the one after reset or a fault. -/
def legalPatterns : List (Bool × Bool × Bool × Bool) :=
  [(false, false, false, false), (true, false, false, false), (true, false, true, false), (true, true, false, false),
    (false, false, false, true), (false, false, true, false)]

/-- The machine's invariant. -/
structure Inv (s : State) : Prop where
  /-- STATUS[7:4] is hardwired 0 (R39). -/
  reserved : statusReserved s.status = 0#4
  /-- CAUSE is 0 exactly when the last command did not fault (R39, R300). -/
  cause : statusFault s.status = true ↔ statusCause s.status ≠ 0#2
  /-- A fault leaves STICKY set (R39, R302). -/
  sticky : statusFault s.status = true → statusSticky s.status = true
  /-- After a fault no output register holds a value (R302). -/
  faultNoValue : statusFault s.status = true → valuePattern s = (false, false, false, false)
  /-- The output registers that hold a value are those of one row of R85, or none. -/
  pattern : valuePattern s ∈ legalPatterns
  /-- ORD is never 11 (R36, U10). -/
  order : s.ord ≠ some 0b11#2
  /-- The host's variables are in canonical form (the model's own). -/
  vars : varsWf s.vars

/-- A run so far is safe when no command faulted since reset and no host line set the mark (D4, R345): STICKY and the
mark are clear. -/
def Safe (s : State) : Prop := statusSticky s.status = false ∧ s.mark = false

/-- Two sets of inputs agree on what an operation reads (R83): the word pair's low words, the low w bits, the count, the
carry, as its row says. -/
def readsSame (i : Instr) (x x' : Inputs) : Prop :=
  match i with
  | .add | .sub | .mul | .muls | .divu | .remu | .divs | .rems | .cmpu | .cmps => x.a = x'.a ∧ x.b = x'.b
  | .adc64 | .sbb64 =>
    x.a.toNat % 2 ^ 64 = x'.a.toNat % 2 ^ 64 ∧ x.b.toNat % 2 ^ 64 = x'.b.toNat % 2 ^ 64 ∧ x.cin = x'.cin
  | .wmul64 => x.a.toNat % 2 ^ 64 = x'.a.toNat % 2 ^ 64 ∧ x.b.toNat % 2 ^ 64 = x'.b.toNat % 2 ^ 64
  | .inc | .dec | .neg | .test => x.a = x'.a
  | .shl | .shrl | .shra => x.a = x'.a ∧ x.cnt = x'.cnt
  | .sext w | .zext w | .trunc w => x.a.toNat % 2 ^ widthBits w = x'.a.toNat % 2 ^ widthBits w

/-- Whether an operation can raise DIV_ZERO (R300). -/
def isDivide (i : Instr) : Bool :=
  match i with
  | .divu | .remu | .divs | .rems => true
  | .add | .adc64 | .inc | .sub | .sbb64 | .dec | .neg | .wmul64 | .mul | .shl | .shrl | .shra | .cmpu | .cmps | .test
  | .muls | .sext _ | .zext _ | .trunc _ => false

/-- Whether an operation can raise SHIFT_RANGE (R300). -/
def isShift (i : Instr) : Bool :=
  match i with
  | .shl | .shrl | .shra => true
  | .add | .adc64 | .inc | .sub | .sbb64 | .dec | .neg | .wmul64 | .mul | .divu | .remu | .cmpu | .cmps | .test
  | .muls | .divs | .rems | .sext _ | .zext _ | .trunc _ => false

end Sys2Proof.Claims
end

