-- ==== Sys2Proof/Certificates/Slice0/Obligations.lean ====
section
/-! DEFINITION. The statements for the provers, in the order of OBLIGATIONS.json. A command is written `exec i s`, on the
inputs that stand at the ports of `s`; `afterSuccess` and `afterFault` (Safety.lean) write the whole next state out, so an
equation with one of them is the instruction's result, its completion and its frame together. -/

open Sys2Proof
open Sys2Proof.Machine
open Sys2Proof.Claims

/-- R81, R82, R84, R86: words written out from the spec's tables. -/
def Obligations.DecodesWordsOfTheOpcodeMap : Prop :=
  decode 0b000000000_00_00001#16 = .ok .add ∧ decode 0b000000000_00_00101#16 = .ok .sbb64 ∧
  decode 0b000000000_00_01001#16 = .ok .mul ∧ decode 0b000000000_00_01010#16 = .ok .divu ∧
  decode 0b000000000_00_01110#16 = .ok .shra ∧ decode 0b000000000_00_10001#16 = .ok .cmps ∧
  decode 0b000000000_00_10110#16 = .ok .rems ∧ decode 0b000000000_10_11000#16 = .ok (.sext .w32) ∧
  decode 0b000000000_01_11001#16 = .ok (.zext .w16) ∧ decode 0b000000000_11_11010#16 = .ok (.trunc .w64) ∧
  decode 0b000000000_00_00000#16 = .error .reservedOpcode ∧
  decode 0b000000001_00_00001#16 = .error .reservedBits ∧
  decode 0b000000000_01_00001#16 = .error .widthNotAllowed

/-- R81, R82, R84: decode and encode are inverse to each other, on every instruction and every word. -/
def Obligations.DecodeIsTheInverseOfEncode : Prop :=
  ∀ (i : Instr) (w : BitVec 16), decode w = .ok i ↔ w = encode i

/-- R87: exactly 32 words are legal: 20 operations with one word each, SEXT, ZEXT and TRUNC with four each. -/
def Obligations.ExactlyThirtyTwoWordsAreLegal : Prop :=
  (∀ w : BitVec 16, (∃ i, decode w = .ok i) ↔
    w ∈ ([0x0001#16, 0x0002#16, 0x0003#16, 0x0004#16, 0x0005#16, 0x0006#16, 0x0007#16, 0x0008#16, 0x0009#16, 0x000A#16,
          0x000B#16, 0x000C#16, 0x000D#16, 0x000E#16, 0x0010#16, 0x0011#16, 0x0012#16, 0x0014#16, 0x0015#16, 0x0016#16] ++
         [0x0018#16, 0x0038#16, 0x0058#16, 0x0078#16] ++ [0x0019#16, 0x0039#16, 0x0059#16, 0x0079#16] ++
         [0x001A#16, 0x003A#16, 0x005A#16, 0x007A#16])) ∧
  ∀ w : BitVec 16, (∃ i, decode w = .ok i) ∨ (∃ e, decode w = .error e)

/-- R86: the words of R86 (a), (b) and (c), and no others, raise ILLEGAL_OP, whatever the operands. -/
def Obligations.IllegalWordsRaiseIllegalOp : Prop :=
  ∀ s : State,
    let opc := s.inp.cmd.toNat % 32
    let wid := s.inp.cmd.toNat / 32 % 4
    let rsv := s.inp.cmd.toNat / 128
    ((opc = 0x00 ∨ opc = 0x0F ∨ opc = 0x13 ∨ opc = 0x17 ∨ (0x1B ≤ opc ∧ opc ≤ 0x1F)) ∨ rsv ≠ 0 ∨
        (wid ≠ 0 ∧ opc ≠ 0x18 ∧ opc ≠ 0x19 ∧ opc ≠ 0x1A) →
      runCommand s = .next (afterFault s 0x0B#8)) ∧
    (¬((opc = 0x00 ∨ opc = 0x0F ∨ opc = 0x13 ∨ opc = 0x17 ∨ (0x1B ≤ opc ∧ opc ≤ 0x1F)) ∨ rsv ≠ 0 ∨
        (wid ≠ 0 ∧ opc ≠ 0x18 ∧ opc ≠ 0x19 ∧ opc ≠ 0x1A)) →
      ∃ i, decode s.inp.cmd = .ok i ∧ runCommand s = exec i s)

/-- R45: the registers after reset. -/
def Obligations.ResetValuesOfTheRegisters : Prop :=
  State.reset.y = none ∧ State.reset.z = none ∧ State.reset.f = none ∧ State.reset.ord = none ∧
  statusFault State.reset.status = false ∧ statusCause State.reset.status = 0#2 ∧
  statusSticky State.reset.status = false ∧ statusReserved State.reset.status = 0#4

/-- R340, R45: reset from any state; that the host's own state stays is the model's reading (log 11). -/
def Obligations.ResetLineClearsEveryRegister : Prop :=
  ∀ s : State, s.prog[s.line]? = some .reset →
    step s = .next { s with y := none, z := none, f := none, ord := none, status := 0x00#8, line := s.line + 1 }

/-- R340, R39, R305: reset is the only event that clears STICKY. -/
def Obligations.OnlyResetClearsSticky : Prop :=
  ∀ s t : State, step s = .next t → statusSticky s.status = true → s.prog[s.line]? ≠ some .reset →
    statusSticky t.status = true

/-- R88, R345: a line that issues a word the decoder reads as `i` runs `exec i` on the inputs it presents; then the host
copies the results and moves on. -/
def Obligations.StepRunsTheDecodedCommand : Prop :=
  ∀ (s : State) (c : CmdLine) (inp : Inputs) (i : Instr),
    s.prog[s.line]? = some (.issue c) → presentedInputs c s.vars = some inp → decode c.word = .ok i →
    ∃ t, exec i { s with inp := inp } = .next t ∧
      step s = .next { collectResults c.dsts t with line := s.line + 1 }

/-- R36, R39, R85, R302: the invariant holds at reset. -/
def Obligations.ResetMeetsTheMachineInvariant : Prop := Inv State.reset

/-- R36, R38, R39, R85, R302: every step keeps the invariant (reserved bits 0; FAULT, CAUSE and STICKY consistent; no output
value after a fault; the registers with a value those of one row of R85; ORD never 11; the host's variables canonical, the
last being the model's own). -/
def Obligations.StepKeepsTheMachineInvariant : Prop :=
  ∀ s t : State, Inv s → step s = .next t → Inv t

/-- R344: every command completes and no state stops the machine. -/
def Obligations.EveryStepAndCommandCompletes : Prop :=
  (∀ s : State, ∃ t, step s = .next t) ∧ ∀ (i : Instr) (s : State), ∃ t, exec i s = .next t

/-- R32, R302: an instruction changes no input, no host state, and nothing but the four output registers and STATUS. -/
def Obligations.ExecChangesOnlyTheRegisters : Prop :=
  ∀ (i : Instr) (s t : State), exec i s = .next t →
    t.inp = s.inp ∧ t.prog = s.prog ∧ t.line = s.line ∧ t.vars = s.vars ∧ t.mark = s.mark

/-- R85: which registers hold a value after an operation that does not fault, one row per operation. -/
def Obligations.SuccessWritesTheRegistersOfTheTable : Prop :=
  ∀ (i : Instr) (s t : State), exec i s = .next t → statusFault t.status = false →
    valuePattern t =
      match i with
      | .add | .inc | .sub | .dec | .neg | .wmul64 | .mul | .muls | .remu | .rems | .shl | .shrl | .shra | .sext _
      | .zext _ | .trunc _ => (true, false, false, false)
      | .adc64 | .sbb64 => (true, false, true, false)
      | .divu | .divs => (true, true, false, false)
      | .cmpu | .cmps => (false, false, false, true)
      | .test => (false, false, true, false)

/-- R300, R301, R303, R100, R191: each cause is reported exactly under its condition, CAUSE is 0 exactly when FAULT is, and a
fault writes no output and changes nothing but the registers. -/
def Obligations.FaultCausesOfTheTable : Prop :=
  ∀ s : State, ∃ t, runCommand s = .next t ∧
    (statusCause t.status = 1#2 ↔ ∃ e, decode s.inp.cmd = .error e) ∧
    (statusCause t.status = 2#2 ↔ ∃ i, decode s.inp.cmd = .ok i ∧ isDivide i = true ∧ s.inp.b.toNat = 0) ∧
    (statusCause t.status = 3#2 ↔ ∃ i, decode s.inp.cmd = .ok i ∧ isShift i = true ∧ 128 ≤ s.inp.cnt.toNat) ∧
    (statusCause t.status = 0#2 ↔ statusFault t.status = false) ∧
    (statusFault t.status = true → t = afterFault s t.status)

/-- R302: after a fault no register holds a value, STATUS reports it with STICKY set, and nothing else changes. -/
def Obligations.FaultEffectOnTheState : Prop :=
  ∀ s t : State, runCommand s = .next t → statusFault t.status = true →
    t.y = none ∧ t.z = none ∧ t.f = none ∧ t.ord = none ∧ statusSticky t.status = true ∧
    (t.status = 0x0B#8 ∧ (∃ e, decode s.inp.cmd = .error e) ∨
      t.status = 0x0D#8 ∧ (∃ i, decode s.inp.cmd = .ok i ∧ isDivide i = true) ∨
      t.status = 0x0F#8 ∧ (∃ i, decode s.inp.cmd = .ok i ∧ isShift i = true)) ∧
    t.inp = s.inp ∧ t.prog = s.prog ∧ t.line = s.line ∧ t.vars = s.vars ∧ t.mark = s.mark

/-- R38, R12: a command's outputs and its FAULT and CAUSE depend on its inputs alone: nothing is retained from an earlier
command. -/
def Obligations.OutputsIgnoreEarlierCommands : Prop :=
  ∀ s s' t t' : State, s.inp = s'.inp → runCommand s = .next t → runCommand s' = .next t' →
    t.y = t'.y ∧ t.z = t'.z ∧ t.f = t'.f ∧ t.ord = t'.ord ∧
    statusFault t.status = statusFault t'.status ∧ statusCause t.status = statusCause t'.status

/-- R40: PATH changes nothing that can be observed. -/
def Obligations.PathIsNotObservable : Prop :=
  ∀ (s t : State) (p : Bool), runCommand s = .next t →
    runCommand { s with inp := { s.inp with path := p } } = .next { t with inp := { t.inp with path := p } }

/-- R83, R31: an input the operation does not read has no effect on any output or on STATUS. -/
def Obligations.UnreadInputsHaveNoEffect : Prop :=
  ∀ (i : Instr) (s t : State) (x : Inputs), readsSame i s.inp x → exec i s = .next t →
    exec i { s with inp := x } = .next { t with inp := x }

/-- R65, R37: what a host read of each register answers, and that the same command twice gives the same registers and STATUS.
The read line is the model's (log 10), and so are that STATUS is read zero-extended (log 10) and that a read of a register
with no value leaves the variable without one and sets the mark (log 6). -/
def Obligations.ReadsAndRepeatedCommandsAreDeterministic : Prop :=
  (∀ s : State,
    (∀ v, s.y = some v → hostRead .y s = .ok (.value v)) ∧ (s.y = none → hostRead .y s = .error (.readNoValue .y)) ∧
    (∀ v, s.z = some v → hostRead .z s = .ok (.value v)) ∧ (s.z = none → hostRead .z s = .error (.readNoValue .z)) ∧
    (∀ b, s.f = some b → hostRead .f s = .ok (.bit b)) ∧ (s.f = none → hostRead .f s = .error (.readNoValue .f)) ∧
    (∀ o, s.ord = some o → hostRead .ord s = .ok (.order o)) ∧
    (s.ord = none → hostRead .ord s = .error (.readNoValue .ord)) ∧
    hostRead .status s = .ok (.value (BitVec.ofNat 128 s.status.toNat))) ∧
  (∀ (s : State) (d : Nat) (r : OutReg), s.prog[s.line]? = some (.read d r) →
    ∃ t, step s = .next t ∧ t.y = s.y ∧ t.z = s.z ∧ t.f = s.f ∧ t.ord = s.ord ∧ t.status = s.status ∧
      t.inp = s.inp ∧ t.prog = s.prog ∧ t.line = s.line + 1 ∧
      (∀ r', hostRead r' t = hostRead r' s) ∧
      (∀ v, hostRead r s = .ok v → varsGet t.vars d = some v ∧ t.mark = s.mark) ∧
      (∀ e, hostRead r s = .error e → t.mark = true ∧ (varsWf s.vars → varsGet t.vars d = none)) ∧
      ∀ n, n ≠ d → varsGet t.vars n = varsGet s.vars n) ∧
  ∀ (s t u : State) (inp : Inputs), runCommand { s with inp := inp } = .next t →
    runCommand { t with inp := inp } = .next u →
    u.y = t.y ∧ u.z = t.z ∧ u.f = t.f ∧ u.ord = t.ord ∧ u.status = t.status

/-- R131: ADD is the sum modulo 2^128, in both interpretations. -/
def Obligations.AddIsTheSumModulo : Prop :=
  decode 0x0001#16 = .ok .add ∧
  ∀ s : State,
    let y := BitVec.ofNat 128 (s.inp.a.toNat + s.inp.b.toNat)
    exec .add s = .next (afterSuccess s (some y) none none none) ∧
    y.toInt = (s.inp.a.toInt + s.inp.b.toInt).bmod (2 ^ 128)

/-- R130: ADC64 adds the low words and CIN; `Y.hi` is 0 and F the carry out. -/
def Obligations.Adc64AddsWordsWithCarry : Prop :=
  decode 0x0002#16 = .ok .adc64 ∧
  ∀ s : State,
    let t := s.inp.a.toNat % 2 ^ 64 + s.inp.b.toNat % 2 ^ 64 + s.inp.cin.toNat
    exec .adc64 s = .next (afterSuccess s (some (BitVec.ofNat 128 (t % 2 ^ 64))) none (some (decide (2 ^ 64 ≤ t))) none)

/-- R132, R142: INC and DEC, modulo 2^128. -/
def Obligations.IncAndDecByOne : Prop :=
  decode 0x0003#16 = .ok .inc ∧ decode 0x0006#16 = .ok .dec ∧
  ∀ s : State,
    exec .inc s = .next (afterSuccess s (some (BitVec.ofNat 128 (s.inp.a.toNat + 1))) none none none) ∧
    exec .dec s = .next (afterSuccess s (some (BitVec.ofInt 128 ((s.inp.a.toNat : Int) - 1))) none none none)

/-- R141: SUB is the difference modulo 2^128, in both interpretations. -/
def Obligations.SubIsTheDifferenceModulo : Prop :=
  decode 0x0004#16 = .ok .sub ∧
  ∀ s : State,
    let y := BitVec.ofInt 128 ((s.inp.a.toNat : Int) - (s.inp.b.toNat : Int))
    exec .sub s = .next (afterSuccess s (some y) none none none) ∧
    y.toInt = (s.inp.a.toInt - s.inp.b.toInt).bmod (2 ^ 128)

/-- R140: SBB64 subtracts the low words and the borrow in; `Y.hi` is 0 and F the borrow out. -/
def Obligations.Sbb64SubtractsWordsWithBorrow : Prop :=
  decode 0x0005#16 = .ok .sbb64 ∧
  ∀ s : State,
    let t : Int := (s.inp.a.toNat % 2 ^ 64 : Nat) - (s.inp.b.toNat % 2 ^ 64 : Nat) - (s.inp.cin.toNat : Int)
    exec .sbb64 s =
      .next (afterSuccess s (some (BitVec.ofNat 128 (t % 2 ^ 64).toNat)) none (some (decide (t < 0))) none)

/-- R143: NEG, as 0 - A and as complement plus one; SMIN is its own negation. -/
def Obligations.NegIsTwosComplementNegation : Prop :=
  decode 0x0007#16 = .ok .neg ∧
  ∀ s : State,
    let y := BitVec.ofInt 128 (0 - (s.inp.a.toNat : Int))
    exec .neg s = .next (afterSuccess s (some y) none none none) ∧ y = ~~~s.inp.a + 1#128 ∧
    (s.inp.a = smin → y = smin) ∧ (s.inp.a = 0 → y = 0)

/-- R170: WMUL64 is the exact product of the low words. -/
def Obligations.Wmul64IsTheExactProduct : Prop :=
  decode 0x0008#16 = .ok .wmul64 ∧
  ∀ s : State,
    let p := (s.inp.a.toNat % 2 ^ 64) * (s.inp.b.toNat % 2 ^ 64)
    p < 2 ^ 128 ∧ exec .wmul64 s = .next (afterSuccess s (some (BitVec.ofNat 128 p)) none none none)

/-- R172: MUL is the product modulo 2^128. -/
def Obligations.MulIsTheProductModulo : Prop :=
  decode 0x0009#16 = .ok .mul ∧
  ∀ s : State,
    exec .mul s = .next (afterSuccess s (some (BitVec.ofNat 128 (s.inp.a.toNat * s.inp.b.toNat))) none none none)

/-- R232, R233: MULS is the signed product modulo 2^128, and gives the same bits as MUL. -/
def Obligations.MulsIsTheSignedProductAndEqualsMul : Prop :=
  decode 0x0014#16 = .ok .muls ∧
  ∀ s : State,
    exec .muls s = .next (afterSuccess s (some (BitVec.ofInt 128 (s.inp.a.toInt * s.inp.b.toInt))) none none none) ∧
    exec .muls s = exec .mul s

/-- R190, R192: DIVU gives the exact quotient and remainder, and DIV_ZERO for B = 0. -/
def Obligations.DivuQuotientAndRemainder : Prop :=
  decode 0x000A#16 = .ok .divu ∧
  ∀ s : State,
    (s.inp.b.toNat ≠ 0 → ∃ q r : Value,
      exec .divu s = .next (afterSuccess s (some q) (some r) none none) ∧
      q.toNat = s.inp.a.toNat / s.inp.b.toNat ∧ s.inp.a.toNat = q.toNat * s.inp.b.toNat + r.toNat ∧
      r.toNat < s.inp.b.toNat) ∧
    (s.inp.b.toNat = 0 → exec .divu s = .next (afterFault s 0x0D#8))

/-- R193: REMU gives the remainder in Y, and DIV_ZERO for B = 0. -/
def Obligations.RemuRemainder : Prop :=
  decode 0x000B#16 = .ok .remu ∧
  ∀ s : State,
    (s.inp.b.toNat ≠ 0 → ∃ r : Value,
      exec .remu s = .next (afterSuccess s (some r) none none none) ∧ r.toNat = s.inp.a.toNat % s.inp.b.toNat) ∧
    (s.inp.b.toNat = 0 → exec .remu s = .next (afterFault s 0x0D#8))

/-- R234, R236: DIVS truncates toward zero, its remainder has the dividend's sign, SMIN / -1 is SMIN, and B = 0 raises
DIV_ZERO. -/
def Obligations.DivsTruncatingQuotientAndRemainder : Prop :=
  decode 0x0015#16 = .ok .divs ∧
  ∀ s : State,
    (s.inp.b.toNat ≠ 0 → ∃ q r : Value,
      exec .divs s = .next (afterSuccess s (some q) (some r) none none) ∧
      (¬(s.inp.a = smin ∧ s.inp.b = umax) → q.toInt = s.inp.a.toInt.tdiv s.inp.b.toInt) ∧
      (s.inp.a = smin ∧ s.inp.b = umax → q = smin ∧ r = 0#128) ∧
      r.toInt = s.inp.a.toInt.tmod s.inp.b.toInt) ∧
    (s.inp.b.toNat = 0 → exec .divs s = .next (afterFault s 0x0D#8))

/-- R235, R237: REMS gives the truncating remainder, 0 or of the dividend's sign and smaller than the divisor. -/
def Obligations.RemsRemainderHasDividendSign : Prop :=
  decode 0x0016#16 = .ok .rems ∧
  ∀ s : State,
    (s.inp.b.toNat ≠ 0 → ∃ r : Value,
      exec .rems s = .next (afterSuccess s (some r) none none none) ∧
      r.toInt = s.inp.a.toInt.tmod s.inp.b.toInt ∧ (r = 0#128 ∨ r.msb = s.inp.a.msb) ∧
      r.toInt.natAbs < s.inp.b.toInt.natAbs ∧ (s.inp.a = smin ∧ s.inp.b = umax → r = 0#128)) ∧
    (s.inp.b.toNat = 0 → exec .rems s = .next (afterFault s 0x0D#8))

/-- R101: SHL multiplies by 2^k modulo 2^128 for k below 128; a larger count raises SHIFT_RANGE. -/
def Obligations.ShlMultipliesByAPowerOfTwo : Prop :=
  decode 0x000C#16 = .ok .shl ∧
  ∀ s : State,
    (s.inp.cnt.toNat < 128 →
      exec .shl s =
        .next (afterSuccess s (some (BitVec.ofNat 128 (s.inp.a.toNat * 2 ^ s.inp.cnt.toNat))) none none none)) ∧
    (128 ≤ s.inp.cnt.toNat → exec .shl s = .next (afterFault s 0x0F#8))

/-- R102: SHRL divides the unsigned value by 2^k; a count of 128 or more raises SHIFT_RANGE. -/
def Obligations.ShrlDividesTheUnsignedValue : Prop :=
  decode 0x000D#16 = .ok .shrl ∧
  ∀ s : State,
    (s.inp.cnt.toNat < 128 →
      exec .shrl s =
        .next (afterSuccess s (some (BitVec.ofNat 128 (s.inp.a.toNat / 2 ^ s.inp.cnt.toNat))) none none none)) ∧
    (128 ≤ s.inp.cnt.toNat → exec .shrl s = .next (afterFault s 0x0F#8))

/-- R103: SHRA divides the signed value by 2^k, rounding toward minus infinity; a count of 128 or more raises
SHIFT_RANGE. -/
def Obligations.ShraDividesTheSignedValue : Prop :=
  decode 0x000E#16 = .ok .shra ∧
  ∀ s : State,
    (s.inp.cnt.toNat < 128 →
      exec .shra s =
        .next (afterSuccess s (some (BitVec.ofInt 128 (s.inp.a.toInt.fdiv (2 ^ s.inp.cnt.toNat)))) none none none)) ∧
    (128 ≤ s.inp.cnt.toNat → exec .shra s = .next (afterFault s 0x0F#8))

/-- R260, R261: CMPU orders by the unsigned values, CMPS by the signed ones. -/
def Obligations.ComparesOrderByTheirValues : Prop :=
  decode 0x0010#16 = .ok .cmpu ∧ decode 0x0011#16 = .ok .cmps ∧
  ∀ s : State,
    exec .cmpu s = .next (afterSuccess s none none none (some
      (if s.inp.a.toNat < s.inp.b.toNat then 0b01#2 else if s.inp.b.toNat < s.inp.a.toNat then 0b10#2 else 0b00#2))) ∧
    exec .cmps s = .next (afterSuccess s none none none (some
      (if s.inp.a.toInt < s.inp.b.toInt then 0b01#2 else if s.inp.b.toInt < s.inp.a.toInt then 0b10#2 else 0b00#2)))

/-- R264: TEST writes F, true iff A is not zero. -/
def Obligations.TestIsTheNonzeroTest : Prop :=
  decode 0x0012#16 = .ok .test ∧
  ∀ s : State, exec .test s = .next (afterSuccess s none none (some (decide (s.inp.a.toNat ≠ 0))) none)

/-- R267, R268: SEXT.w gives the signed value of the low w bits, kept in 128 bits. -/
def Obligations.SextKeepsTheSignedValue : Prop :=
  decode 0x0018#16 = .ok (.sext .w8) ∧ decode 0x0038#16 = .ok (.sext .w16) ∧ decode 0x0058#16 = .ok (.sext .w32) ∧
  decode 0x0078#16 = .ok (.sext .w64) ∧
  ∀ (w : NativeWidth) (s : State),
    let n := s.inp.a.toNat % 2 ^ widthBits w
    let v : Int := if n < 2 ^ (widthBits w - 1) then (n : Int) else (n : Int) - 2 ^ widthBits w
    ∃ y : Value, exec (.sext w) s = .next (afterSuccess s (some y) none none none) ∧ y.toInt = v

/-- R269, R271: ZEXT.w and TRUNC.w give the low w bits with zeros above. -/
def Obligations.ZextAndTruncKeepTheLowBits : Prop :=
  decode 0x0019#16 = .ok (.zext .w8) ∧ decode 0x0039#16 = .ok (.zext .w16) ∧ decode 0x0059#16 = .ok (.zext .w32) ∧
  decode 0x0079#16 = .ok (.zext .w64) ∧ decode 0x001A#16 = .ok (.trunc .w8) ∧ decode 0x003A#16 = .ok (.trunc .w16) ∧
  decode 0x005A#16 = .ok (.trunc .w32) ∧ decode 0x007A#16 = .ok (.trunc .w64) ∧
  ∀ (w : NativeWidth) (s : State), ∃ y : Value,
    y.toNat = s.inp.a.toNat % 2 ^ widthBits w ∧
    exec (.zext w) s = .next (afterSuccess s (some y) none none none) ∧
    exec (.trunc w) s = .next (afterSuccess s (some y) none none none)

/-- R104: the two shift laws, as commands that follow each other. -/
def Obligations.ShiftThereAndBack : Prop :=
  ∀ (s s' : State) (a b : Value) (cnt : BitVec 32) (cin : Bool), cnt.toNat < 128 →
    (∃ y, resultY (issueOn .shl a b cnt cin s) = some y ∧
      resultY (issueOn .shrl y b cnt cin s') = some (a &&& BitVec.ofNat 128 (2 ^ (128 - cnt.toNat) - 1))) ∧
    (∃ y, resultY (issueOn .shrl a b cnt cin s) = some y ∧
      resultY (issueOn .shl y b cnt cin s') = some (a &&& ~~~BitVec.ofNat 128 (2 ^ cnt.toNat - 1)))

/-- R144: the add and subtract laws, the carry and borrow out with CIN = 0, and the 128-bit add from two ADC64 commands. -/
def Obligations.AddAndSubtractLaws : Prop :=
  ∀ (s s' : State) (a b : Value) (cnt : BitVec 32) (cin : Bool),
    (∃ y, resultY (issueOn .add a b cnt cin s) = some y ∧ resultY (issueOn .sub y b cnt cin s') = some a) ∧
    resultY (issueOn .add a b cnt cin s) = resultY (issueOn .add b a cnt cin s') ∧
    (∃ n, resultY (issueOn .neg b a cnt cin s) = some n ∧
      resultY (issueOn .sub a b cnt cin s') = resultY (issueOn .add a n cnt cin s')) ∧
    (∃ d, resultY (issueOn .dec a b cnt cin s) = some d ∧ resultY (issueOn .inc d b cnt cin s') = some a) ∧
    resultF (issueOn .adc64 a b cnt false s) = some (decide (2 ^ 64 ≤ (lo a).toNat + (lo b).toNat)) ∧
    resultF (issueOn .sbb64 a b cnt false s) = some (decide ((lo a).toNat < (lo b).toNat)) ∧
    ∃ (y0 y1 : Value) (f0 : Bool),
      resultY (issueOn .adc64 (pair (lo a) 0) (pair (lo b) 0) cnt false s) = some y0 ∧
      resultF (issueOn .adc64 (pair (lo a) 0) (pair (lo b) 0) cnt false s) = some f0 ∧
      resultY (issueOn .adc64 (pair (hi a) 0) (pair (hi b) 0) cnt f0 s') = some y1 ∧
      resultF (issueOn .adc64 (pair (hi a) 0) (pair (hi b) 0) cnt f0 s') =
        some (decide (2 ^ 128 ≤ a.toNat + b.toNat)) ∧
      resultY (issueOn .add a b cnt cin s) = some (pair (lo y0) (lo y1))

/-- R173: the multiply laws. -/
def Obligations.MultiplyLaws : Prop :=
  ∀ (s s' : State) (a b : Value) (cnt : BitVec 32) (cin : Bool),
    resultY (issueOn .mul a (pair 1 0) cnt cin s) = some a ∧
    resultY (issueOn .mul a (pair 0 0) cnt cin s) = some 0#128 ∧
    resultY (issueOn .mul a b cnt cin s) = resultY (issueOn .mul b a cnt cin s') ∧
    (∃ m w, resultY (issueOn .mul a b cnt cin s) = some m ∧ resultY (issueOn .wmul64 a b cnt cin s') = some w ∧
      lo m = lo w) ∧
    (hi a = 0#64 → hi b = 0#64 →
      resultY (issueOn .mul a b cnt cin s) = resultY (issueOn .wmul64 a b cnt cin s'))

/-- R205, R204: the unsigned division identity, over the commands DIVU, MUL, ADD and REMU, and the quotient's bounds for a
long divisor. -/
def Obligations.UnsignedDivisionIdentity : Prop :=
  ∀ (s : State) (a b : Value) (cnt : BitVec 32) (cin : Bool), b.toNat ≠ 0 →
    ∃ q r p : Value,
      resultY (issueOn .divu a b cnt cin s) = some q ∧ resultZ (issueOn .divu a b cnt cin s) = some r ∧
      resultY (issueOn .mul q b cnt cin s) = some p ∧ resultY (issueOn .add p r cnt cin s) = some a ∧
      r.toNat < b.toNat ∧ resultY (issueOn .remu a b cnt cin s) = some r ∧
      (2 ^ 64 ≤ b.toNat → q.toNat < 2 ^ 64) ∧ (2 ^ 32 ≤ b.toNat → q.toNat < 2 ^ 96)

/-- R238: the signed division identity, for every pair with B ≠ 0, and agreement with DIVU and REMU on non-negative
operands. -/
def Obligations.SignedDivisionIdentity : Prop :=
  ∀ (s : State) (a b : Value) (cnt : BitVec 32) (cin : Bool), b.toNat ≠ 0 →
    (∃ q r p : Value,
      resultY (issueOn .divs a b cnt cin s) = some q ∧ resultZ (issueOn .divs a b cnt cin s) = some r ∧
      resultY (issueOn .mul q b cnt cin s) = some p ∧ resultY (issueOn .add p r cnt cin s) = some a ∧
      resultY (issueOn .rems a b cnt cin s) = some r) ∧
    (a.msb = false → b.msb = false →
      resultY (issueOn .divs a b cnt cin s) = resultY (issueOn .divu a b cnt cin s) ∧
      resultZ (issueOn .divs a b cnt cin s) = resultZ (issueOn .divu a b cnt cin s) ∧
      resultY (issueOn .rems a b cnt cin s) = resultY (issueOn .remu a b cnt cin s))

/-- R262, R263: equality does not depend on signedness; CMPU orders by the unsigned values and CMPS by the signed ones; both
orders are antisymmetric and transitive, and agree on operands of one sign. -/
def Obligations.ComparisonLaws : Prop :=
  ∀ (s : State) (a b c : Value) (cnt : BitVec 32) (cin : Bool),
    (resultOrd (issueOn .cmpu a b cnt cin s) = some 0b00#2 ↔ a = b) ∧
    (resultOrd (issueOn .cmps a b cnt cin s) = some 0b00#2 ↔ a = b) ∧
    (a.msb = b.msb → resultOrd (issueOn .cmpu a b cnt cin s) = resultOrd (issueOn .cmps a b cnt cin s)) ∧
    (∀ i, i = .cmpu ∨ i = .cmps →
      (resultOrd (issueOn i a b cnt cin s) = some 0b01#2 ↔ resultOrd (issueOn i b a cnt cin s) = some 0b10#2) ∧
      (resultOrd (issueOn i a b cnt cin s) = some 0b01#2 → resultOrd (issueOn i b c cnt cin s) = some 0b01#2 →
        resultOrd (issueOn i a c cnt cin s) = some 0b01#2)) ∧
    (resultOrd (issueOn .cmpu a b cnt cin s) = some 0b01#2 ↔ a.toNat < b.toNat) ∧
    (resultOrd (issueOn .cmps a b cnt cin s) = some 0b01#2 ↔ a.toInt < b.toInt) ∧
    resultOrd (issueOn .cmps smin 0#128 cnt cin s) = some 0b01#2 ∧
    resultOrd (issueOn .cmps 0#128 smax cnt cin s) = some 0b01#2

/-- R272: widening and narrowing back gives the native integer. -/
def Obligations.NativeRoundTrip : Prop :=
  ∀ (w : NativeWidth) (s s' : State) (a b : Value) (cnt : BitVec 32) (cin : Bool),
    (∃ y v, resultY (issueOn (.sext w) a b cnt cin s) = some y ∧
      resultY (issueOn (.trunc w) y b cnt cin s') = some v ∧
      v.toNat % 2 ^ widthBits w = a.toNat % 2 ^ widthBits w) ∧
    (∃ y v, resultY (issueOn (.zext w) a b cnt cin s) = some y ∧
      resultY (issueOn (.trunc w) y b cnt cin s') = some v ∧
      v.toNat % 2 ^ widthBits w = a.toNat % 2 ^ widthBits w)

/-- R171, R170, R40: the schoolbook path, with the width of every intermediate value: each partial product below 2^64, `mid`
below 3 * 2^32, and both sums below 2^64, so that no carry is lost. Its result is the exact product, so WMUL64 gives the
product of either path. -/
def Obligations.SchoolbookPathIsTheExactProduct : Prop :=
  (∀ a b : Word64,
    let a0 := a.toNat % 2 ^ 32
    let a1 := a.toNat / 2 ^ 32
    let b0 := b.toNat % 2 ^ 32
    let b1 := b.toNat / 2 ^ 32
    let mid := a0 * b0 / 2 ^ 32 + a0 * b1 % 2 ^ 32 + a1 * b0 % 2 ^ 32
    let low := a0 * b0 % 2 ^ 32 + mid % 2 ^ 32 * 2 ^ 32
    let high := a1 * b1 + a0 * b1 / 2 ^ 32 + a1 * b0 / 2 ^ 32 + mid / 2 ^ 32
    a0 * b0 < 2 ^ 64 ∧ a0 * b1 < 2 ^ 64 ∧ a1 * b0 < 2 ^ 64 ∧ a1 * b1 < 2 ^ 64 ∧ mid < 3 * 2 ^ 32 ∧ low < 2 ^ 64 ∧
    high ≤ 2 ^ 64 - 1 ∧
    (lo (schoolbookProduct a b)).toNat = low ∧ (hi (schoolbookProduct a b)).toNat = high ∧
    (schoolbookProduct a b).toNat = a.toNat * b.toNat ∧ ∀ fast, multiplierByPath fast a b = wideProduct a b) ∧
  ∀ (fast : Bool) (s : State),
    exec .wmul64 s =
      .next (afterSuccess s (some (multiplierByPath fast (lo s.inp.a) (lo s.inp.b))) none none none)

/-- R195, R196, R190: the one-digit routine and the 64-bit-divisor routine meet the contract, and the low quotient of the
latter fits 64 bits. -/
def Obligations.ShortDivisorRoutinesMeetTheContract : Prop :=
  ∀ a b : Value, b.toNat ≠ 0 →
    (b.toNat < 2 ^ 32 → divideOneDigit a b = divideExact a b) ∧
    (b.toNat < 2 ^ 64 → divideTwoSteps a b = divideExact a b ∧
      (a.toNat / 2 ^ 64 % b.toNat * 2 ^ 64 + a.toNat % 2 ^ 64) / b.toNat < 2 ^ 64)

/-- R199: with a normalized top digit the correction loop decrements at most twice, and on a window below 2^32 times the
divisor it leaves the true quotient digit or one more, below 2^32. -/
def Obligations.CorrectionLeavesAtMostOneTooMany : Prop :=
  (∀ top second next fuel qhat rhat : Nat, 2 ^ 31 ≤ top → 2 ≤ fuel →
    correctDigit top second next fuel qhat rhat = correctDigit top second next 2 qhat rhat) ∧
  ∀ (vn un : List Nat) (j : Nat),
    2 ≤ vn.length → (∀ d ∈ vn, d < 2 ^ 32) → (∀ d ∈ un, d < 2 ^ 32) → 2 ^ 31 ≤ vn.getD (vn.length - 1) 0 →
    j + vn.length < un.length →
    digitsValue ((un.drop j).take (vn.length + 1)) < 2 ^ 32 * digitsValue vn →
    let exact := digitsValue ((un.drop j).take (vn.length + 1)) / digitsValue vn
    estimateDigit vn un j < 2 ^ 32 ∧ (estimateDigit vn un j = exact ∨ estimateDigit vn un j = exact + 1)

/-- R197 to R202, R190: Algorithm D gives the exact quotient and remainder for every divisor of at least two digits. -/
def Obligations.AlgorithmDMeetsTheContract : Prop :=
  ∀ a b : Value, 2 ^ 32 ≤ b.toNat → algorithmD a b = divideExact a b

/-- R194, R203, R190, R40: every path of the dispatch ladder, with or without the early exit, gives the same result. -/
def Obligations.EveryDividePathMeetsTheContract : Prop :=
  ∀ a b : Value, b.toNat ≠ 0 →
    (∀ fast twoDigit early : Bool, dividerWith fast twoDigit early a b = divideExact a b) ∧
    ∀ path : Bool, divider path a b = divideExact a b

/-- R345: a command line whose command succeeds copies the named registers; a register with no value gives its variable no
value and sets the mark (log 6). The variables are in canonical form, as `Inv` says. -/
def Obligations.CommandLineCopiesItsResults : Prop :=
  ∀ (s t : State) (c : CmdLine) (inp : Inputs),
    s.prog[s.line]? = some (.issue c) → presentedInputs c s.vars = some inp →
    runCommand { s with inp := inp } = .next t → statusFault t.status = false →
    (c.dsts.map Prod.snd).Nodup → varsWf s.vars →
    ∃ u, step s = .next u ∧
      (∀ r n v, (r, n) ∈ c.dsts → hostRead r t = .ok v → varsGet u.vars n = some v) ∧
      (∀ r n f, (r, n) ∈ c.dsts → hostRead r t = .error f → varsGet u.vars n = none ∧ u.mark = true) ∧
      (∀ n, n ∉ c.dsts.map Prod.snd → varsGet u.vars n = varsGet s.vars n) ∧
      ((∀ r n, (r, n) ∈ c.dsts → ∃ v, hostRead r t = .ok v) → u.mark = s.mark) ∧
      u.line = s.line + 1 ∧ u.prog = s.prog ∧
      u.y = t.y ∧ u.z = t.z ∧ u.f = t.f ∧ u.ord = t.ord ∧ u.status = t.status

/-- R345: a command line whose command faults gives every destination no value and sets the mark. -/
def Obligations.CommandLineFaultClearsItsDestinations : Prop :=
  ∀ (s t : State) (c : CmdLine) (inp : Inputs),
    s.prog[s.line]? = some (.issue c) → presentedInputs c s.vars = some inp →
    runCommand { s with inp := inp } = .next t → statusFault t.status = true → varsWf s.vars →
    ∃ u, step s = .next u ∧
      (∀ r n, (r, n) ∈ c.dsts → varsGet u.vars n = none) ∧
      (∀ n, n ∉ c.dsts.map Prod.snd → varsGet u.vars n = varsGet s.vars n) ∧
      u.mark = true ∧ u.line = s.line + 1 ∧ u.prog = s.prog ∧
      u.y = none ∧ u.z = none ∧ u.f = none ∧ u.ord = none ∧ u.status = t.status

/-- R345: a line that reads a variable with no value sets the mark and has no other effect; that its counter moves on is the
model's reading (log 7). -/
def Obligations.ReadingNoValueSetsTheMark : Prop :=
  ∀ (s : State) (n : Nat), varsGet s.vars n = none →
    (∀ c : CmdLine, s.prog[s.line]? = some (.issue c) →
      (c.a = .var n ∨ c.b = .var n ∨ c.cnt = .var n ∨ c.cin = .var n) →
      step s = .next { s with mark := true, line := s.line + 1 }) ∧
    (∀ d, s.prog[s.line]? = some (.copy d (.var n)) → step s = .next { s with mark := true, line := s.line + 1 }) ∧
    (∀ (t : HostTest) (target : Nat), t.var = n →
      s.prog[s.line]? = some (.ifGoto t target) ∨ s.prog[s.line]? = some (.whileDo t target) →
      step s = .next { s with mark := true, line := s.line + 1 })

/-- R345: host copies and control lines, what a test of a 128-bit value, a bit or an ORD value against a literal decides, and
the end of a program. The form of `if` and `while` lines, and the ten relations of a test, are the model's (log 9); so are
that a bit is compared with a number as 0 or 1 and that contents which cannot be compared decide nothing (log 8), and that
the end waits (log 3). -/
def Obligations.HostCopiesAndControlLines : Prop :=
  (∀ s : State,
    (∀ d v, s.prog[s.line]? = some (.copy d (.lit v)) →
      step s = .next { s with vars := varsSet s.vars d (some v), line := s.line + 1 }) ∧
    (∀ d n v, s.prog[s.line]? = some (.copy d (.var n)) → varsGet s.vars n = some v →
      step s = .next { s with vars := varsSet s.vars d (some v), line := s.line + 1 }) ∧
    (∀ target, s.prog[s.line]? = some (.goto target) → step s = .next { s with line := target }) ∧
    (∀ t target b, s.prog[s.line]? = some (.ifGoto t target) → testHolds t s.vars = some b →
      step s = .next { s with line := if b then target else s.line + 1 }) ∧
    (∀ t exit b, s.prog[s.line]? = some (.whileDo t exit) → testHolds t s.vars = some b →
      step s = .next { s with line := if b then s.line + 1 else exit }) ∧
    (s.prog.length ≤ s.line → step s = .next s)) ∧
  ∀ (vars : List (Nat × HostVal)) (n : Nat),
    (∀ (r : Rel) (v w : Value), varsGet vars n = some (.value v) →
      testHolds { var := n, rel := r, lit := .value w } vars = some
        (match r with
          | .eq => decide (v.toNat = w.toNat)
          | .ne => decide (v.toNat ≠ w.toNat)
          | .ltu => decide (v.toNat < w.toNat)
          | .leu => decide (v.toNat ≤ w.toNat)
          | .gtu => decide (v.toNat > w.toNat)
          | .geu => decide (v.toNat ≥ w.toNat)
          | .lts => decide (v.toInt < w.toInt)
          | .les => decide (v.toInt ≤ w.toInt)
          | .gts => decide (v.toInt > w.toInt)
          | .ges => decide (v.toInt ≥ w.toInt))) ∧
    (∀ b c : Bool, varsGet vars n = some (.bit b) →
      testHolds { var := n, rel := .eq, lit := .bit c } vars = some (decide (b = c)) ∧
      testHolds { var := n, rel := .ne, lit := .bit c } vars = some (decide (b ≠ c))) ∧
    (∀ (b : Bool) (w : Value), varsGet vars n = some (.bit b) →
      testHolds { var := n, rel := .eq, lit := .value w } vars = some (decide (w.toNat = if b then 1 else 0)) ∧
      testHolds { var := n, rel := .ne, lit := .value w } vars = some (decide (w.toNat ≠ if b then 1 else 0))) ∧
    (∀ o p : BitVec 2, varsGet vars n = some (.order o) →
      testHolds { var := n, rel := .eq, lit := .order p } vars = some (decide (o = p)) ∧
      testHolds { var := n, rel := .ne, lit := .order p } vars = some (decide (o ≠ p))) ∧
    (∀ (r : Rel) (c l : HostVal), varsGet vars n = some c →
      (testHolds { var := n, rel := r, lit := l } vars = none ↔
        match c, l with
        | .value _, .value _ => False
        | .bit _, .bit _ | .bit _, .value _ | .order _, .order _ => r ≠ .eq ∧ r ≠ .ne
        | .value _, .bit _ | .value _, .order _ | .bit _, .order _ | .order _, .value _ | .order _, .bit _ => True))

/-- R345: the fault mark is never cleared, by any line. -/
def Obligations.FaultMarkIsNeverCleared : Prop :=
  ∀ s t : State, step s = .next t → s.mark = true → t.mark = true

/-- R30, R65, R345: no line but a command or reset changes a register or an input of CORE128. -/
def Obligations.OnlyCommandsAndResetChangeTheRegisters : Prop :=
  ∀ s t : State, step s = .next t → (∀ c, s.prog[s.line]? ≠ some (.issue c)) → s.prog[s.line]? ≠ some .reset →
    t.y = s.y ∧ t.z = s.z ∧ t.f = s.f ∧ t.ord = s.ord ∧ t.status = s.status ∧ t.inp = s.inp

/-- R90: the comparisons among the pseudo-instructions: the expansion's test on ORD holds exactly when the relation does. -/
def Obligations.PseudoComparisonsMeanTheirRelations : Prop :=
  ∀ (p : Pseudo) (s : State) (a b : Value) (cnt : BitVec 32) (cin : Bool) (vars : List (Nat × HostVal)) (n : Nat),
    ∃ o, resultOrd (issueOn (pseudoInstr p) a b cnt cin s) = some o ∧
      testHolds (pseudoTest p n) (varsSet vars n (some (.order o))) = some
        (match p with
          | .eq => decide (a = b)
          | .ne => decide (a ≠ b)
          | .ltu => decide (a.toNat < b.toNat)
          | .lts => decide (a.toInt < b.toInt)
          | .leu => decide (a.toNat ≤ b.toNat)
          | .les => decide (a.toInt ≤ b.toInt)
          | .gtu => decide (b.toNat < a.toNat)
          | .gts => decide (b.toInt < a.toInt)
          | .geu => decide (b.toNat ≤ a.toNat)
          | .ges => decide (b.toInt ≤ a.toInt))

/-- R89: the mnemonics, written out as the spec spells them; a mnemonic names its instruction in any case, and a written
command line issues that instruction's word. -/
def Obligations.MnemonicsNameTheirInstructions : Prop :=
  (∀ p ∈ ([(.add, "ADD"), (.adc64, "ADC64"), (.inc, "INC"), (.sub, "SUB"), (.sbb64, "SBB64"), (.dec, "DEC"),
           (.neg, "NEG"), (.wmul64, "WMUL64"), (.mul, "MUL"), (.divu, "DIVU")] ++
      [(.remu, "REMU"), (.shl, "SHL"), (.shrl, "SHRL"), (.shra, "SHRA"), (.cmpu, "CMPU"), (.cmps, "CMPS"),
       (.test, "TEST"), (.muls, "MULS"), (.divs, "DIVS"), (.rems, "REMS")] ++
      [(.sext .w8, "SEXT.8"), (.sext .w16, "SEXT.16"), (.sext .w32, "SEXT.32"), (.sext .w64, "SEXT.64")] ++
      [(.zext .w8, "ZEXT.8"), (.zext .w16, "ZEXT.16"), (.zext .w32, "ZEXT.32"), (.zext .w64, "ZEXT.64")] ++
      [(.trunc .w8, "TRUNC.8"), (.trunc .w16, "TRUNC.16"), (.trunc .w32, "TRUNC.32"), (.trunc .w64, "TRUNC.64")]
      : List (Instr × String)),
    asmName p.1 = p.2.toList) ∧
  ∀ (i : Instr) (cs : List Char), upperCase cs = asmName i →
    instrOfName cs = some i ∧ ∀ (o : AsmOperands) (dsts : List Nat), decode (commandLine i o dsts).word = .ok i

/-- D4, R39, R345: if STICKY is clear after a run of a program without a reset line, no command of the run faulted. -/
def Obligations.StickyClearMeansNoFaultInTheRun : Prop :=
  ∀ (k : Nat) (s t : State), Line.reset ∉ s.prog → Sys2Proof.core.run k s = .next t →
    statusSticky t.status = false →
    ∀ j, j ≤ k → ∃ u : State, Sys2Proof.core.run j s = .next u ∧ statusSticky u.status = false ∧
      (statusFault s.status = false → statusFault u.status = false)
end

