-- ==== Sys2Proof/Laws/State.lean ====
section
/-! SUPPORT. One lemma per field per update of the state, true by rfl. -/

namespace Sys2Proof.Machine

section complete
variable (o : Outputs) (s : State)
@[simp] theorem complete_y : (s.complete o).y = o.y := rfl
@[simp] theorem complete_z : (s.complete o).z = o.z := rfl
@[simp] theorem complete_f : (s.complete o).f = o.f := rfl
@[simp] theorem complete_ord : (s.complete o).ord = o.ord := rfl
@[simp] theorem complete_status : (s.complete o).status = statusWord false 0#2 (statusSticky s.status) := rfl
@[simp] theorem complete_inp : (s.complete o).inp = s.inp := rfl
@[simp] theorem complete_prog : (s.complete o).prog = s.prog := rfl
@[simp] theorem complete_line : (s.complete o).line = s.line := rfl
@[simp] theorem complete_vars : (s.complete o).vars = s.vars := rfl
@[simp] theorem complete_mark : (s.complete o).mark = s.mark := rfl
end complete

section raiseFault
variable (c : Cause) (s : State)
@[simp] theorem raiseFault_y : (s.raiseFault c).y = none := rfl
@[simp] theorem raiseFault_z : (s.raiseFault c).z = none := rfl
@[simp] theorem raiseFault_f : (s.raiseFault c).f = none := rfl
@[simp] theorem raiseFault_ord : (s.raiseFault c).ord = none := rfl
@[simp] theorem raiseFault_status : (s.raiseFault c).status = statusWord true (causeCode c) true := rfl
@[simp] theorem raiseFault_inp : (s.raiseFault c).inp = s.inp := rfl
@[simp] theorem raiseFault_prog : (s.raiseFault c).prog = s.prog := rfl
@[simp] theorem raiseFault_line : (s.raiseFault c).line = s.line := rfl
@[simp] theorem raiseFault_vars : (s.raiseFault c).vars = s.vars := rfl
@[simp] theorem raiseFault_mark : (s.raiseFault c).mark = s.mark := rfl
end raiseFault

section applyReset
variable (s : State)
@[simp] theorem applyReset_y : s.applyReset.y = none := rfl
@[simp] theorem applyReset_z : s.applyReset.z = none := rfl
@[simp] theorem applyReset_f : s.applyReset.f = none := rfl
@[simp] theorem applyReset_ord : s.applyReset.ord = none := rfl
@[simp] theorem applyReset_status : s.applyReset.status = 0x00#8 := rfl
@[simp] theorem applyReset_inp : s.applyReset.inp = s.inp := rfl
@[simp] theorem applyReset_prog : s.applyReset.prog = s.prog := rfl
@[simp] theorem applyReset_line : s.applyReset.line = s.line := rfl
@[simp] theorem applyReset_vars : s.applyReset.vars = s.vars := rfl
@[simp] theorem applyReset_mark : s.applyReset.mark = s.mark := rfl
end applyReset

section present
variable (inp : Inputs) (s : State)
@[simp] theorem present_y : (s.present inp).y = s.y := rfl
@[simp] theorem present_z : (s.present inp).z = s.z := rfl
@[simp] theorem present_f : (s.present inp).f = s.f := rfl
@[simp] theorem present_ord : (s.present inp).ord = s.ord := rfl
@[simp] theorem present_status : (s.present inp).status = s.status := rfl
@[simp] theorem present_inp : (s.present inp).inp = inp := rfl
@[simp] theorem present_prog : (s.present inp).prog = s.prog := rfl
@[simp] theorem present_line : (s.present inp).line = s.line := rfl
@[simp] theorem present_vars : (s.present inp).vars = s.vars := rfl
@[simp] theorem present_mark : (s.present inp).mark = s.mark := rfl
end present

section advance
variable (s : State)
@[simp] theorem advance_y : s.advance.y = s.y := rfl
@[simp] theorem advance_z : s.advance.z = s.z := rfl
@[simp] theorem advance_f : s.advance.f = s.f := rfl
@[simp] theorem advance_ord : s.advance.ord = s.ord := rfl
@[simp] theorem advance_status : s.advance.status = s.status := rfl
@[simp] theorem advance_inp : s.advance.inp = s.inp := rfl
@[simp] theorem advance_prog : s.advance.prog = s.prog := rfl
@[simp] theorem advance_line : s.advance.line = s.line + 1 := rfl
@[simp] theorem advance_vars : s.advance.vars = s.vars := rfl
@[simp] theorem advance_mark : s.advance.mark = s.mark := rfl
end advance

section setMark
variable (s : State)
@[simp] theorem setMark_y : s.setMark.y = s.y := rfl
@[simp] theorem setMark_z : s.setMark.z = s.z := rfl
@[simp] theorem setMark_f : s.setMark.f = s.f := rfl
@[simp] theorem setMark_ord : s.setMark.ord = s.ord := rfl
@[simp] theorem setMark_status : s.setMark.status = s.status := rfl
@[simp] theorem setMark_inp : s.setMark.inp = s.inp := rfl
@[simp] theorem setMark_prog : s.setMark.prog = s.prog := rfl
@[simp] theorem setMark_line : s.setMark.line = s.line := rfl
@[simp] theorem setMark_vars : s.setMark.vars = s.vars := rfl
@[simp] theorem setMark_mark : s.setMark.mark = true := rfl
end setMark

section setVar
variable (n : Nat) (v : Option HostVal) (s : State)
@[simp] theorem setVar_y : (s.setVar n v).y = s.y := rfl
@[simp] theorem setVar_z : (s.setVar n v).z = s.z := rfl
@[simp] theorem setVar_f : (s.setVar n v).f = s.f := rfl
@[simp] theorem setVar_ord : (s.setVar n v).ord = s.ord := rfl
@[simp] theorem setVar_status : (s.setVar n v).status = s.status := rfl
@[simp] theorem setVar_inp : (s.setVar n v).inp = s.inp := rfl
@[simp] theorem setVar_prog : (s.setVar n v).prog = s.prog := rfl
@[simp] theorem setVar_line : (s.setVar n v).line = s.line := rfl
@[simp] theorem setVar_vars : (s.setVar n v).vars = varsSet s.vars n v := rfl
@[simp] theorem setVar_mark : (s.setVar n v).mark = s.mark := rfl
end setVar

end Sys2Proof.Machine
end

