-- ==== Sys2Proof/Laws/Vars.lean ====
section
/-! SUPPORT. The host's variables: a read after a write, and the canonical form, which every update keeps. -/

namespace Sys2Proof.Machine

theorem varsGet_insert_same (vars : List (Nat × HostVal)) (n : Nat) (v : HostVal) :
    varsGet (varsInsert vars n v) n = some v := by
  induction vars with
  | nil => simp [varsInsert, varsGet]
  | cons head rest ih =>
    obtain ⟨m, u⟩ := head
    simp only [varsInsert]
    split
    · simp [varsGet]
    · split
      · simp [varsGet]
      · simp [varsGet, *]

theorem varsGet_insert_other (vars : List (Nat × HostVal)) {n k : Nat} (v : HostVal) (h : k ≠ n) :
    varsGet (varsInsert vars n v) k = varsGet vars k := by
  induction vars with
  | nil => simp [varsInsert, varsGet, Ne.symm h]
  | cons head rest ih =>
    obtain ⟨m, u⟩ := head
    simp only [varsInsert]
    split
    · simp [varsGet, Ne.symm h]
    · split
      · rename_i hm; subst hm; simp [varsGet, Ne.symm h]
      · simp [varsGet, ih]

theorem varsGet_erase_other (vars : List (Nat × HostVal)) {n k : Nat} (h : k ≠ n) :
    varsGet (varsErase vars n) k = varsGet vars k := by
  induction vars with
  | nil => rfl
  | cons head rest ih =>
    obtain ⟨m, u⟩ := head
    simp only [varsErase]
    split
    · rename_i hm; subst hm; simp [varsGet, Ne.symm h]
    · simp [varsGet, ih]

/-- A variable below every listed one has no value. -/
theorem varsGet_none_of_lt {vars : List (Nat × HostVal)} {n : Nat} (h : ∀ m ∈ vars.map Prod.fst, n < m) :
    varsGet vars n = none := by
  induction vars with
  | nil => rfl
  | cons head rest ih =>
    obtain ⟨m, u⟩ := head
    have hm : n < m := h m (by simp)
    simp only [varsGet, if_neg (Nat.ne_of_gt hm)]
    exact ih fun k hk => h k (by simp only [List.map_cons, List.mem_cons]; exact .inr hk)

theorem varsGet_erase_same {vars : List (Nat × HostVal)} (n : Nat) (h : varsWf vars) :
    varsGet (varsErase vars n) n = none := by
  induction vars with
  | nil => rfl
  | cons head rest ih =>
    obtain ⟨m, u⟩ := head
    rw [varsWf, List.map_cons, List.pairwise_cons] at h
    simp only [varsErase]
    split
    · rename_i hm; subst hm; exact varsGet_none_of_lt h.1
    · rename_i hm; simp only [varsGet, if_neg hm]; exact ih h.2

theorem mem_varsInsert {vars : List (Nat × HostVal)} {n k : Nat} {v : HostVal}
    (h : k ∈ (varsInsert vars n v).map Prod.fst) : k = n ∨ k ∈ vars.map Prod.fst := by
  induction vars with
  | nil => simpa [varsInsert] using h
  | cons head rest ih =>
    obtain ⟨m, u⟩ := head
    simp only [varsInsert] at h
    split at h
    · simpa using h
    · split at h
      · rename_i hm; subst hm
        simp only [List.map_cons, List.mem_cons] at h ⊢
        exact h.imp id .inr
      · simp only [List.map_cons, List.mem_cons] at h ⊢
        rcases h with h | h
        · exact .inr (.inl h)
        · exact (ih h).imp id .inr

theorem mem_varsErase {vars : List (Nat × HostVal)} {n k : Nat} (h : k ∈ (varsErase vars n).map Prod.fst) :
    k ∈ vars.map Prod.fst := by
  induction vars with
  | nil => exact h
  | cons head rest ih =>
    obtain ⟨m, u⟩ := head
    simp only [varsErase] at h
    split at h
    · simp only [List.map_cons, List.mem_cons]; exact .inr h
    · simp only [List.map_cons, List.mem_cons] at h ⊢
      exact h.imp id ih

theorem varsWf_insert {vars : List (Nat × HostVal)} (n : Nat) (v : HostVal) (h : varsWf vars) :
    varsWf (varsInsert vars n v) := by
  induction vars with
  | nil => simp [varsInsert, varsWf]
  | cons head rest ih =>
    obtain ⟨m, u⟩ := head
    have hw := h
    rw [varsWf, List.map_cons, List.pairwise_cons] at h
    simp only [varsInsert]
    split
    · rename_i hlt
      rw [varsWf, List.map_cons, List.pairwise_cons]
      refine ⟨fun k hk => ?_, hw⟩
      rcases List.mem_cons.mp hk with rfl | hk
      · exact hlt
      · exact Nat.lt_trans hlt (h.1 k hk)
    · split
      · rename_i hm; subst hm
        rw [varsWf, List.map_cons, List.pairwise_cons]; exact h
      · rename_i hlt hne
        rw [varsWf, List.map_cons, List.pairwise_cons]
        refine ⟨fun k hk => ?_, ih h.2⟩
        rcases mem_varsInsert hk with rfl | hk
        · show m < k
          omega
        · exact h.1 k hk

theorem varsWf_erase {vars : List (Nat × HostVal)} (n : Nat) (h : varsWf vars) : varsWf (varsErase vars n) := by
  induction vars with
  | nil => exact h
  | cons head rest ih =>
    obtain ⟨m, u⟩ := head
    rw [varsWf, List.map_cons, List.pairwise_cons] at h
    simp only [varsErase]
    split
    · exact h.2
    · rw [varsWf, List.map_cons, List.pairwise_cons]
      exact ⟨fun k hk => h.1 k (mem_varsErase hk), ih h.2⟩

/-- Every update of a variable keeps the canonical form. -/
theorem varsWf_set {vars : List (Nat × HostVal)} (n : Nat) (v : Option HostVal) (h : varsWf vars) :
    varsWf (varsSet vars n v) := by
  cases v with
  | none => exact varsWf_erase n h
  | some u => exact varsWf_insert n u h

theorem varsGet_set_same {vars : List (Nat × HostVal)} (n : Nat) (v : Option HostVal) (h : varsWf vars) :
    varsGet (varsSet vars n v) n = v := by
  cases v with
  | none => exact varsGet_erase_same n h
  | some u => exact varsGet_insert_same vars n u

theorem varsGet_set_other (vars : List (Nat × HostVal)) {n k : Nat} (v : Option HostVal) (h : k ≠ n) :
    varsGet (varsSet vars n v) k = varsGet vars k := by
  cases v with
  | none => exact varsGet_erase_other vars h
  | some u => exact varsGet_insert_other vars u h

end Sys2Proof.Machine
end

