-- ==== Sys2Proof/Laws/Ops.lean ====
section
/-! SUPPORT. What each shared operation can do: one lemma each, cited instead of unfolding it. -/

namespace Sys2Proof.Machine

@[simp] theorem statusFault_statusWord (f : Bool) (c : BitVec 2) (k : Bool) : statusFault (statusWord f c k) = f := by
  revert f c k; decide

@[simp] theorem statusCause_statusWord (f : Bool) (c : BitVec 2) (k : Bool) : statusCause (statusWord f c k) = c := by
  revert f c k; decide

@[simp] theorem statusSticky_statusWord (f : Bool) (c : BitVec 2) (k : Bool) : statusSticky (statusWord f c k) = k := by
  revert f c k; decide

@[simp] theorem statusReserved_statusWord (f : Bool) (c : BitVec 2) (k : Bool) :
    statusReserved (statusWord f c k) = 0#4 := by
  revert f c k; decide

theorem causeCode_ne_zero (c : Cause) : causeCode c ≠ 0#2 := by cases c <;> decide

theorem causeCode_injective {c d : Cause} (h : causeCode c = causeCode d) : c = d := by
  revert h; cases c <;> cases d <;> decide

/-- The STATUS byte of a command that does not fault: STICKY alone is kept (R39). -/
theorem statusWord_success (status : BitVec 8) : statusWord false 0#2 (statusSticky status) = status &&& 0x08#8 := by
  revert status; decide

/-- The STATUS bytes of the three faults, as 95_test_vectors.md lists them. -/
theorem statusWord_fault (c : Cause) :
    statusWord true (causeCode c) true =
      match c with
      | .illegalOp => 0x0B#8
      | .divZero => 0x0D#8
      | .shiftRange => 0x0F#8 := by
  cases c <;> decide

/-- What a shift command does: by its count, SHIFT_RANGE or the shifted value (R100). -/
theorem shiftCommand_cases (shift : Value → Nat → Value) (s : State) :
    (128 ≤ opCount s ∧ shiftCommand shift s = .next (s.raiseFault .shiftRange)) ∨
    (opCount s < 128 ∧ shiftCommand shift s = .next (s.complete (yOnly (shift (opA s) (opCount s))))) := by
  by_cases h : 128 ≤ opCount s
  · exact .inl ⟨h, by simp [shiftCommand, h]⟩
  · exact .inr ⟨by omega, by simp [shiftCommand, h]⟩

/-- What a divide command does: by its divisor, DIV_ZERO or its results (R191). -/
theorem divideCommand_cases (result : Value → Value → Outputs) (s : State) :
    ((opB s).toNat = 0 ∧ divideCommand result s = .next (s.raiseFault .divZero)) ∨
    ((opB s).toNat ≠ 0 ∧ divideCommand result s = .next (s.complete (result (opA s) (opB s)))) := by
  by_cases h : (opB s).toNat = 0
  · exact .inl ⟨h, by simp only [divideCommand, if_pos h]⟩
  · exact .inr ⟨h, by simp only [divideCommand, if_neg h]⟩

/-- A copy of one register changes one variable and perhaps the mark, and nothing else (R65). -/
theorem copyRegister_cases (r : OutReg) (n : Nat) (s : State) :
    (∃ v, hostRead r s = .ok v ∧ copyRegister r n s = s.setVar n (some v)) ∨
    (∃ e, hostRead r s = .error e ∧ copyRegister r n s = (s.setVar n none).setMark) := by
  cases h : hostRead r s with
  | ok v => exact .inl ⟨v, rfl, by simp [copyRegister, h]⟩
  | error e => exact .inr ⟨e, rfl, by simp [copyRegister, h]⟩

/-- A host update of variables and mark, which leaves CORE128 and the program alone. -/
def HostOnly (s t : State) : Prop :=
  t.y = s.y ∧ t.z = s.z ∧ t.f = s.f ∧ t.ord = s.ord ∧ t.status = s.status ∧ t.inp = s.inp ∧ t.prog = s.prog ∧
  t.line = s.line ∧ (s.mark = true → t.mark = true) ∧ (varsWf s.vars → varsWf t.vars)

theorem HostOnly.refl (s : State) : HostOnly s s := ⟨rfl, rfl, rfl, rfl, rfl, rfl, rfl, rfl, id, id⟩

theorem HostOnly.trans {s t u : State} (h : HostOnly s t) (k : HostOnly t u) : HostOnly s u := by
  obtain ⟨h1, h2, h3, h4, h5, h6, h7, h8, h9, h10⟩ := h
  obtain ⟨k1, k2, k3, k4, k5, k6, k7, k8, k9, k10⟩ := k
  exact ⟨k1.trans h1, k2.trans h2, k3.trans h3, k4.trans h4, k5.trans h5, k6.trans h6, k7.trans h7, k8.trans h8,
    fun h => k9 (h9 h), fun h => k10 (h10 h)⟩

theorem hostOnly_setVar (n : Nat) (v : Option HostVal) (s : State) : HostOnly s (s.setVar n v) :=
  ⟨rfl, rfl, rfl, rfl, rfl, rfl, rfl, rfl, id, varsWf_set n v⟩

theorem hostOnly_setMark (s : State) : HostOnly s s.setMark :=
  ⟨rfl, rfl, rfl, rfl, rfl, rfl, rfl, rfl, fun _ => rfl, id⟩

theorem hostOnly_copyRegister (r : OutReg) (n : Nat) (s : State) : HostOnly s (copyRegister r n s) := by
  rcases copyRegister_cases r n s with ⟨v, -, h⟩ | ⟨e, -, h⟩ <;> rw [h]
  · exact hostOnly_setVar n _ s
  · exact (hostOnly_setVar n none s).trans (hostOnly_setMark _)

theorem hostOnly_copyRegisters (dsts : List (OutReg × Nat)) (s : State) : HostOnly s (copyRegisters dsts s) := by
  induction dsts generalizing s with
  | nil => exact .refl s
  | cons d rest ih => exact (hostOnly_copyRegister d.1 d.2 s).trans (ih _)

theorem hostOnly_clearDestinations (dsts : List (OutReg × Nat)) (s : State) :
    HostOnly s (clearDestinations dsts s) := by
  induction dsts generalizing s with
  | nil => exact .refl s
  | cons d rest ih => exact (hostOnly_setVar d.2 none s).trans (ih _)

/-- The host's part of a command line leaves CORE128 and the program alone. -/
theorem hostOnly_collectResults (dsts : List (OutReg × Nat)) (s : State) : HostOnly s (collectResults dsts s) := by
  unfold collectResults
  split
  · exact (hostOnly_clearDestinations dsts s).trans (hostOnly_setMark _)
  · exact hostOnly_copyRegisters dsts s

/-- A read sees CORE128's registers alone. -/
theorem hostRead_hostOnly {s t : State} (h : HostOnly s t) (r : OutReg) : hostRead r t = hostRead r s := by
  obtain ⟨hy, hz, hf, ho, hs, -⟩ := h
  cases r <;> simp only [hostRead, hy, hz, hf, ho, hs]

end Sys2Proof.Machine
end

