-- ==== Sys2Proof/Laws/Exec.lean ====
section
/-! SUPPORT. What `exec`, a command and a host line can do: one inversion lemma each. -/

namespace Sys2Proof.Machine

/-- An instruction completes with some outputs, or raises DIV_ZERO or SHIFT_RANGE; it never stops. -/
theorem exec_cases (i : Instr) (s : State) :
    (∃ o, exec i s = .next (s.complete o)) ∨ (∃ c, exec i s = .next (s.raiseFault c)) := by
  have plain (o : Outputs) : ∃ o', writeOutputs o s = .next (s.complete o') := ⟨o, rfl⟩
  have shift (f : Value → Nat → Value) :
      (∃ o, shiftCommand f s = .next (s.complete o)) ∨ (∃ c, shiftCommand f s = .next (s.raiseFault c)) := by
    rcases shiftCommand_cases f s with ⟨-, h⟩ | ⟨-, h⟩
    · exact .inr ⟨_, h⟩
    · exact .inl ⟨_, h⟩
  have divide (f : Value → Value → Outputs) :
      (∃ o, divideCommand f s = .next (s.complete o)) ∨ (∃ c, divideCommand f s = .next (s.raiseFault c)) := by
    rcases divideCommand_cases f s with ⟨-, h⟩ | ⟨-, h⟩
    · exact .inr ⟨_, h⟩
    · exact .inl ⟨_, h⟩
  cases i with
  | shl => exact shift _
  | shrl => exact shift _
  | shra => exact shift _
  | divu => rw [exec, execDivu]; exact divide _
  | remu => rw [exec, execRemu]; exact divide _
  | divs => rw [exec, execDivs]; exact divide _
  | rems => rw [exec, execRems]; exact divide _
  | _ => exact .inl (plain _)

/-- A command completes or raises a fault (R88). -/
theorem runCommand_cases (s : State) :
    (∃ o, runCommand s = .next (s.complete o)) ∨ (∃ c, runCommand s = .next (s.raiseFault c)) := by
  unfold runCommand
  split
  · exact .inr ⟨_, rfl⟩
  · exact exec_cases _ s

/-- What a step can do: wait, run a command and collect its results, touch the host's state alone, reset, or move the line
counter. -/
theorem step_cases (s : State) :
    (s.prog[s.line]? = none ∧ step s = .next s) ∨
    (∃ c inp t, s.prog[s.line]? = some (.issue c) ∧ presentedInputs c s.vars = some inp ∧
      runCommand (s.present inp) = .next t ∧ step s = .next (collectResults c.dsts t).advance) ∨
    (s.prog[s.line]? = some .reset ∧ step s = .next s.applyReset.advance) ∨
    (∃ l u n, s.prog[s.line]? = some l ∧ l ≠ .reset ∧ (∀ c, l = .issue c → presentedInputs c s.vars = none) ∧
      HostOnly s u ∧ step s = .next { u with line := n }) := by
  have test (t : HostTest) (a b : Nat) : ∃ u n, HostOnly s u ∧ runTest t a b s = { u with line := n } := by
    unfold runTest
    split
    · exact ⟨s.setMark, s.line + 1, hostOnly_setMark s, rfl⟩
    · exact ⟨s, a, .refl s, rfl⟩
    · exact ⟨s, b, .refl s, rfl⟩
  cases h : s.prog[s.line]? with
  | none => exact .inl ⟨rfl, by simp [step, fetchLine, h]⟩
  | some l =>
    refine .inr ?_
    have hs : step s = runLine l s := by simp [step, fetchLine, h]
    rw [hs]
    cases l with
    | issue c =>
      cases hp : presentedInputs c s.vars with
      | none =>
        refine .inr (.inr ⟨_, s.setMark, s.line + 1, rfl, nofun, ?_, hostOnly_setMark s, ?_⟩)
        · rintro c' ⟨⟩; exact hp
        · simp only [runLine, runIssue, hp]; rfl
      | some inp =>
        obtain ⟨t, ht⟩ : ∃ t, runCommand (s.present inp) = .next t := by
          rcases runCommand_cases (s.present inp) with ⟨o, h⟩ | ⟨c, h⟩ <;> exact ⟨_, h⟩
        exact .inl ⟨c, inp, t, rfl, hp, ht, by simp only [runLine, runIssue, hp, ht]⟩
    | reset => exact .inr (.inl ⟨rfl, rfl⟩)
    | read d r => exact .inr (.inr ⟨_, copyRegister r d s, (copyRegister r d s).line + 1, rfl, nofun, nofun,
        hostOnly_copyRegister r d s, rfl⟩)
    | copy d src =>
      cases hv : srcAny src s.vars with
      | none => exact .inr (.inr ⟨_, s.setMark, s.line + 1, rfl, nofun, nofun, hostOnly_setMark s,
          by simp only [runLine, runCopy, hv]; rfl⟩)
      | some v => exact .inr (.inr ⟨_, s.setVar d (some v), s.line + 1, rfl, nofun, nofun, hostOnly_setVar d _ s,
          by simp only [runLine, runCopy, hv]; rfl⟩)
    | goto n => exact .inr (.inr ⟨_, s, n, rfl, nofun, nofun, .refl s, rfl⟩)
    | ifGoto t n =>
      obtain ⟨u, m, hu, he⟩ := test t n (s.line + 1)
      exact .inr (.inr ⟨_, u, m, rfl, nofun, nofun, hu, by simp only [runLine, he]⟩)
    | whileDo t n =>
      obtain ⟨u, m, hu, he⟩ := test t (s.line + 1) n
      exact .inr (.inr ⟨_, u, m, rfl, nofun, nofun, hu, by simp only [runLine, he]⟩)

end Sys2Proof.Machine
end

