-- ==== Sys2Proof/Laws/Claims.lean ====
section
/-! SUPPORT. The machine's operations in the terms the claims use. -/

namespace Sys2Proof.Claims

open Machine

/-- Completing a command, written out (R38, R39). -/
theorem complete_eq_afterSuccess (o : Outputs) (s : State) : s.complete o = afterSuccess s o.y o.z o.f o.ord := by
  simp only [State.complete, afterSuccess, statusWord_success]

/-- Raising a fault, written out (R302). -/
theorem raiseFault_eq_afterFault (c : Cause) (s : State) :
    s.raiseFault c = afterFault s (match c with
      | .illegalOp => 0x0B#8
      | .divZero => 0x0D#8
      | .shiftRange => 0x0F#8) := by
  cases c <;> rfl

/-- A law's command is the instruction run on the inputs it presents. -/
theorem issueOn_eq (i : Instr) (a b : Value) (cnt : BitVec 32) (cin : Bool) (s : State)
    (h : decode (encode i) = .ok i) :
    issueOn i a b cnt cin s =
      exec i (s.present { cmd := encode i, a := a, b := b, cnt := cnt, cin := cin, path := s.inp.path }) := by
  simp only [issueOn, runCommand, present_inp, h]

end Sys2Proof.Claims
end

