-- ==== Sys2Proof/Laws/PerInstr.lean ====
section
/-! SUPPORT. The statement made per instruction: the fields of its word are those of the opcode map (30_encoding.md R81,
R82, R84), its reserved bits are zero, and its word is legal (R86). -/

namespace Sys2Proof.Laws.WordFields

abbrev Statement (i : Instr) : Prop :=
  fieldOpc (encode i) = opcode i ∧ fieldWid (encode i) = widField i ∧ fieldRsv (encode i) = 0#9 ∧
  wellFormedInstr i = true

theorem add : Statement .add := by decide
theorem adc64 : Statement .adc64 := by decide
theorem inc : Statement .inc := by decide
theorem sub : Statement .sub := by decide
theorem sbb64 : Statement .sbb64 := by decide
theorem dec : Statement .dec := by decide
theorem neg : Statement .neg := by decide
theorem wmul64 : Statement .wmul64 := by decide
theorem mul : Statement .mul := by decide
theorem divu : Statement .divu := by decide
theorem remu : Statement .remu := by decide
theorem shl : Statement .shl := by decide
theorem shrl : Statement .shrl := by decide
theorem shra : Statement .shra := by decide
theorem cmpu : Statement .cmpu := by decide
theorem cmps : Statement .cmps := by decide
theorem test : Statement .test := by decide
theorem muls : Statement .muls := by decide
theorem divs : Statement .divs := by decide
theorem rems : Statement .rems := by decide
theorem sext (w : NativeWidth) : Statement (.sext w) := by cases w <;> decide
theorem zext (w : NativeWidth) : Statement (.zext w) := by cases w <;> decide
theorem trunc (w : NativeWidth) : Statement (.trunc w) := by cases w <;> decide

end Sys2Proof.Laws.WordFields
end

