-- ==== Sys2Proof/Laws/Words.lean ====
section
/-! SUPPORT. The three views of a value (00_scope.md R9) as arithmetic: words, digits and the whole value. -/

namespace Sys2Proof.Machine

theorem lo_toNat (v : Value) : (lo v).toNat = v.toNat % 2 ^ 64 := by
  simp [lo, BitVec.extractLsb'_toNat]

theorem hi_toNat (v : Value) : (hi v).toNat = v.toNat / 2 ^ 64 := by
  have h := v.isLt
  simp only [hi, BitVec.extractLsb'_toNat, Nat.shiftRight_eq_div_pow]
  exact Nat.mod_eq_of_lt (by omega)

theorem pair_toNat (l h : Word64) : (pair l h).toNat = h.toNat * 2 ^ 64 + l.toNat := by
  have hl := l.isLt
  simp only [pair, BitVec.toNat_append]
  rw [← Nat.shiftLeft_add_eq_or_of_lt hl, Nat.shiftLeft_eq]

theorem value_eq_words (v : Value) : v.toNat = (hi v).toNat * 2 ^ 64 + (lo v).toNat := by
  rw [lo_toNat, hi_toNat]; omega

@[simp] theorem lo_pair (l h : Word64) : lo (pair l h) = l := by
  apply BitVec.eq_of_toNat_eq
  have := l.isLt
  rw [lo_toNat, pair_toNat]; omega

@[simp] theorem hi_pair (l h : Word64) : hi (pair l h) = h := by
  apply BitVec.eq_of_toNat_eq
  have := l.isLt
  rw [hi_toNat, pair_toNat]; omega

@[simp] theorem pair_lo_hi (v : Value) : pair (lo v) (hi v) = v := by
  apply BitVec.eq_of_toNat_eq
  rw [pair_toNat, ← value_eq_words]

theorem value_ext_words {v w : Value} (hl : lo v = lo w) (hh : hi v = hi w) : v = w := by
  rw [← pair_lo_hi v, ← pair_lo_hi w, hl, hh]

theorem digitNat_lt (n i : Nat) : digitNat n i < 2 ^ 32 := Nat.mod_lt _ (by decide)

theorem nativeBits_toNat (w : NativeWidth) (v : Value) : (nativeBits w v).toNat = v.toNat % 2 ^ widthBits w := by
  simp [nativeBits, BitVec.extractLsb'_toNat]

theorem negValue_eq_neg (v : Value) : negValue v = -v := by
  rw [negValue, Int.zero_sub, BitVec.ofInt_neg]
  simp

end Sys2Proof.Machine
end

