-- ==== Sys2Proof/Tests/Slice0.lean ====
section
/-! SUPPORT. Checks of the model: words of the opcode map written out bit by bit (30_encoding.md R81, R82, R84), the
well-formedness checks on ill-formed terms, vectors, traces and programs of 95_test_vectors.md, and for each statement of
Obligations.lean that has hypotheses a state and operands that meet them. Every expected value is the spec's. -/

namespace Sys2Proof.Tests

open Machine
open Claims

/-- The word pair `(l, h)` of the vectors (R6). -/
def wp (l h : Nat) : Value := BitVec.ofNat 128 (l + h * 2 ^ 64)

/-- The reset state with these inputs at the ports. -/
def ports (word : BitVec 16) (a b : Value) (cnt : BitVec 32) (cin : Bool) : State :=
  { State.reset with inp := { cmd := word, a := a, b := b, cnt := cnt, cin := cin, path := false } }

/-- What a command leaves in the registers: Y, Z, F, ORD and STATUS. -/
abbrev Registers := Option Value × Option Value × Option Bool × Option (BitVec 2) × BitVec 8

/-- The registers after an outcome. -/
def registersOf (o : Host.Outcome State Fault Refusal) : Option Registers :=
  match o with
  | .next t => some (t.y, t.z, t.f, t.ord, t.status)
  | .fault _ => none
  | .refused _ => none

/-- The state after an outcome. -/
def nextOf (o : Host.Outcome State Fault Refusal) : Option State :=
  match o with
  | .next t => some t
  | .fault _ => none
  | .refused _ => none

/-- One step right after reset that issues a command word, as the vectors do (95 Part 2). -/
def oneStep (word : Nat) (a b : Value) (cnt : BitVec 32) (cin : Bool) : Option Registers :=
  registersOf (step ((ports 0 a b cnt cin).withFetchWord 16 word))

/-- Only Y holds a value, after a success. -/
def leavesY (l h : Nat) : Option Registers := some (some (wp l h), none, none, none, 0x00#8)

/-- Y and F hold a value, after a success. -/
def leavesYF (l h : Nat) (f : Bool) : Option Registers := some (some (wp l h), none, some f, none, 0x00#8)

/-- Y and Z hold a value, after a success. -/
def leavesYZ (l h l' h' : Nat) : Option Registers := some (some (wp l h), some (wp l' h'), none, none, 0x00#8)

/-- Only F holds a value, after a success. -/
def leavesF (f : Bool) : Option Registers := some (none, none, some f, none, 0x00#8)

/-- Only ORD holds a value, after a success. -/
def leavesOrd (o : BitVec 2) : Option Registers := some (none, none, none, some o, 0x00#8)

/-- No register holds a value, and STATUS reports a fault. -/
def leavesFault (status : BitVec 8) : Option Registers := some (none, none, none, none, status)

/-! Words written out from R81, R82 and R84: RSV, WID, OPC. -/

theorem test_decode_add : decode 0b000000000_00_00001#16 = .ok .add := by decide

theorem test_decode_adc64 : decode 0b000000000_00_00010#16 = .ok .adc64 := by decide

theorem test_decode_inc : decode 0b000000000_00_00011#16 = .ok .inc := by decide

theorem test_decode_sub : decode 0b000000000_00_00100#16 = .ok .sub := by decide

theorem test_decode_sbb64 : decode 0b000000000_00_00101#16 = .ok .sbb64 := by decide

theorem test_decode_dec : decode 0b000000000_00_00110#16 = .ok .dec := by decide

theorem test_decode_neg : decode 0b000000000_00_00111#16 = .ok .neg := by decide

theorem test_decode_wmul64 : decode 0b000000000_00_01000#16 = .ok .wmul64 := by decide

theorem test_decode_mul : decode 0b000000000_00_01001#16 = .ok .mul := by decide

theorem test_decode_divu : decode 0b000000000_00_01010#16 = .ok .divu := by decide

theorem test_decode_remu : decode 0b000000000_00_01011#16 = .ok .remu := by decide

theorem test_decode_shl : decode 0b000000000_00_01100#16 = .ok .shl := by decide

theorem test_decode_shrl : decode 0b000000000_00_01101#16 = .ok .shrl := by decide

theorem test_decode_shra : decode 0b000000000_00_01110#16 = .ok .shra := by decide

theorem test_decode_cmpu : decode 0b000000000_00_10000#16 = .ok .cmpu := by decide

theorem test_decode_cmps : decode 0b000000000_00_10001#16 = .ok .cmps := by decide

theorem test_decode_test : decode 0b000000000_00_10010#16 = .ok .test := by decide

theorem test_decode_muls : decode 0b000000000_00_10100#16 = .ok .muls := by decide

theorem test_decode_divs : decode 0b000000000_00_10101#16 = .ok .divs := by decide

theorem test_decode_rems : decode 0b000000000_00_10110#16 = .ok .rems := by decide

theorem test_decode_sext_w8 : decode 0b000000000_00_11000#16 = .ok (.sext .w8) := by decide

theorem test_decode_sext_w16 : decode 0b000000000_01_11000#16 = .ok (.sext .w16) := by decide

theorem test_decode_sext_w32 : decode 0b000000000_10_11000#16 = .ok (.sext .w32) := by decide

theorem test_decode_sext_w64 : decode 0b000000000_11_11000#16 = .ok (.sext .w64) := by decide

theorem test_decode_zext_w8 : decode 0b000000000_00_11001#16 = .ok (.zext .w8) := by decide

theorem test_decode_zext_w16 : decode 0b000000000_01_11001#16 = .ok (.zext .w16) := by decide

theorem test_decode_zext_w32 : decode 0b000000000_10_11001#16 = .ok (.zext .w32) := by decide

theorem test_decode_zext_w64 : decode 0b000000000_11_11001#16 = .ok (.zext .w64) := by decide

theorem test_decode_trunc_w8 : decode 0b000000000_00_11010#16 = .ok (.trunc .w8) := by decide

theorem test_decode_trunc_w16 : decode 0b000000000_01_11010#16 = .ok (.trunc .w16) := by decide

theorem test_decode_trunc_w32 : decode 0b000000000_10_11010#16 = .ok (.trunc .w32) := by decide

theorem test_decode_trunc_w64 : decode 0b000000000_11_11010#16 = .ok (.trunc .w64) := by decide

theorem test_table_word : decodeTableWord 16 0x0058 = some (.sext .w32) ∧ decodeTableWord 16 0x0013 = none := by decide

/-! Well-formedness: each check refuses an ill-formed term. -/

theorem smoke_reserved_opcode : wellFormedWord 0b000000000_00_10011#16 = false := by decide

theorem smoke_reserved_bits : wellFormedWord 0b000000001_00_00001#16 = false := by decide

theorem smoke_width_not_allowed : wellFormedWord 0b000000000_11_10010#16 = false := by decide

theorem smoke_legal_word : wellFormedWord 0b000000000_11_11010#16 = true := by decide

theorem smoke_every_instruction : ∀ i ∈ allInstrs, wellFormedInstr i = true := by decide

theorem smoke_command_illegal_word : wellFormedCommand { word := 0x0013#16 } = false := by decide

/-- ADD writes no Z (R85), so no destination may name it. -/
theorem smoke_command_unwritten_register : wellFormedCommand { word := 0x0001#16, dsts := [(.z, 0)] } = false := by decide

theorem smoke_command : wellFormedCommand { word := 0x000A#16, dsts := [(.y, 2), (.z, 3), (.status, 4)] } = true := by
  decide

theorem smoke_reserved_order : wellFormedLine 1 (.copy 0 (.lit (.order 0b11#2))) = false := by decide

theorem smoke_goto : wellFormedProgram [.goto 2] = false ∧ wellFormedProgram [.goto 1] = true := by decide

theorem smoke_if : wellFormedLine 4 (.ifGoto { var := 0, rel := .eq, lit := .bit false } 5) = false := by decide

theorem smoke_while : wellFormedLine 4 (.whileDo { var := 0, rel := .ne, lit := .bit false } 5) = false := by decide

/-! Vectors of 95_test_vectors.md, one command right after reset. -/

/-- VA2. -/
theorem test_add_va2 :
    oneStep 0x0001 (wp 0xFFFFFFFFFFFFFFFF 0xFFFFFFFFFFFFFFFF) (wp 1 0) 0 false =
      leavesY 0 0 := by decide

/-- VA4. -/
theorem test_add_va4 :
    oneStep 0x0001 (wp 0x123456789ABCDEF 0xFEDCBA9876543210) (wp 0xFEDCBA9876543211 0x123456789ABCDEF) 0 false =
      leavesY 0 0 := by decide

/-- VA6. -/
theorem test_adc64_va6 :
    oneStep 0x0002 (wp 0xFFFFFFFFFFFFFFFF 0) (wp 0xFFFFFFFFFFFFFFFF 0) 0 true =
      leavesYF 0xFFFFFFFFFFFFFFFF 0 true := by decide

/-- VA8. -/
theorem test_adc64_va8 :
    oneStep 0x0002 (wp 1 0xAAAA) (wp 2 0xBBBB) 0 false =
      leavesYF 3 0 false := by decide

/-- VA9. -/
theorem test_inc_va9 :
    oneStep 0x0003 (wp 0xFFFFFFFFFFFFFFFF 0) (wp 0 0) 0 false =
      leavesY 0 1 := by decide

/-- VA10. -/
theorem test_inc_va10 :
    oneStep 0x0003 (wp 0xFFFFFFFFFFFFFFFF 0xFFFFFFFFFFFFFFFF) (wp 0 0) 0 false =
      leavesY 0 0 := by decide

/-- VA11. -/
theorem test_sub_va11 :
    oneStep 0x0004 (wp 0 1) (wp 1 0) 0 false =
      leavesY 0xFFFFFFFFFFFFFFFF 0 := by decide

/-- VA13. -/
theorem test_sub_va13 :
    oneStep 0x0004 (wp 0 0x8000000000000000) (wp 1 0) 0 false =
      leavesY 0xFFFFFFFFFFFFFFFF 0x7FFFFFFFFFFFFFFF := by decide

/-- VA15. -/
theorem test_sbb64_va15 :
    oneStep 0x0005 (wp 0 0) (wp 0xFFFFFFFFFFFFFFFF 0) 0 true =
      leavesYF 0 0 true := by decide

/-- VA16. -/
theorem test_sbb64_va16 :
    oneStep 0x0005 (wp 9 0) (wp 9 0) 0 true =
      leavesYF 0xFFFFFFFFFFFFFFFF 0 true := by decide

/-- VA17. -/
theorem test_dec_va17 :
    oneStep 0x0006 (wp 0 0) (wp 0 0) 0 false =
      leavesY 0xFFFFFFFFFFFFFFFF 0xFFFFFFFFFFFFFFFF := by decide

/-- VA18. -/
theorem test_dec_va18 :
    oneStep 0x0006 (wp 0 0x8000000000000000) (wp 0 0) 0 false =
      leavesY 0xFFFFFFFFFFFFFFFF 0x7FFFFFFFFFFFFFFF := by decide

/-- VA19. -/
theorem test_neg_va19 :
    oneStep 0x0007 (wp 0 1) (wp 0 0) 0 false =
      leavesY 0 0xFFFFFFFFFFFFFFFF := by decide

/-- VA20. -/
theorem test_neg_va20 :
    oneStep 0x0007 (wp 0 0x8000000000000000) (wp 0 0) 0 false =
      leavesY 0 0x8000000000000000 := by decide

/-- VM2. -/
theorem test_wmul64_vm2 :
    oneStep 0x0008 (wp 0x123456789ABCDEF 0) (wp 0xFEDCBA9876543210 0) 0 false =
      leavesY 0x2236D88FE5618CF0 0x121FA00AD77D742 := by decide

/-- VM3. -/
theorem test_wmul64_vm3 :
    oneStep 0x0008 (wp 3 0xFFFF) (wp 5 0xEEEE) 0 false =
      leavesY 0xF 0 := by decide

/-- VM5. -/
theorem test_mul_vm5 :
    oneStep 0x0009 (wp 0x123456789ABCDEF 0x1111111111111111) (wp 0xFEDCBA9876543210 0x2222222222222222) 0 false =
      leavesY 0x2236D88FE5618CF0 0xEFFD7DE8B55B5210 := by decide

/-- VM7. -/
theorem test_mul_vm7 :
    oneStep 0x0009 (wp 0xFFFFFFFFFFFFFFFF 0xFFFFFFFFFFFFFFFF) (wp 0xFFFFFFFFFFFFFFFF 0xFFFFFFFFFFFFFFFF) 0 false =
      leavesY 1 0 := by decide

/-- VM10. -/
theorem test_muls_vm10 :
    oneStep 0x0014 (wp 0xFFFFFFFFFFFFFFF9 0xFFFFFFFFFFFFFFFF) (wp 2 0) 0 false =
      leavesY 0xFFFFFFFFFFFFFFF2 0xFFFFFFFFFFFFFFFF := by decide

/-- VM11. -/
theorem test_muls_vm11 :
    oneStep 0x0014 (wp 0 0x8000000000000000) (wp 0xFFFFFFFFFFFFFFFF 0xFFFFFFFFFFFFFFFF) 0 false =
      leavesY 0 0x8000000000000000 := by decide

/-- VD7. -/
theorem test_divu_vd7 :
    oneStep 0x000A (wp 0x7FFFFFFF00000000 0xFFFFFFFE80000001) (wp 0x8000000180000001 0xFFFFFFFF) 0 false =
      leavesYZ 0xFFFFFFFE 0 0x100000002 0xFFFFFFFF := by decide

/-- VD16. -/
theorem test_divu_vd16 :
    oneStep 0x000A (wp 5 5) (wp 0 0) 0 false =
      leavesFault 0x0D#8 := by decide

/-- VD2. -/
theorem test_remu_vd2 :
    oneStep 0x000B (wp 0 1) (wp 3 0) 0 false =
      leavesY 1 0 := by decide

/-- VD15. -/
theorem test_remu_vd15 :
    oneStep 0x000B (wp 0x1234 0) (wp 0x1234 0) 0 false =
      leavesY 0 0 := by decide

/-- VQ1. -/
theorem test_divs_vq1 :
    oneStep 0x0015 (wp 0xFFFFFFFFFFFFFFF9 0xFFFFFFFFFFFFFFFF) (wp 2 0) 0 false =
      leavesYZ 0xFFFFFFFFFFFFFFFD 0xFFFFFFFFFFFFFFFF 0xFFFFFFFFFFFFFFFF 0xFFFFFFFFFFFFFFFF := by decide

/-- VQ9. -/
theorem test_divs_vq9 :
    oneStep 0x0015 (wp 0 0x8000000000000000) (wp 0xFFFFFFFFFFFFFFFF 0xFFFFFFFFFFFFFFFF) 0 false =
      leavesYZ 0 0x8000000000000000 0 0 := by decide

/-- VQ5. -/
theorem test_rems_vq5 :
    oneStep 0x0016 (wp 7 0) (wp 0xFFFFFFFFFFFFFFFE 0xFFFFFFFFFFFFFFFF) 0 false =
      leavesY 1 0 := by decide

/-- VQ10. -/
theorem test_rems_vq10 :
    oneStep 0x0016 (wp 0 0x8000000000000000) (wp 0xFFFFFFFFFFFFFFFF 0xFFFFFFFFFFFFFFFF) 0 false =
      leavesY 0 0 := by decide

/-- VS5. -/
theorem test_shl_vs5 :
    oneStep 0x000C (wp 0x8000000000000001 1) (wp 0 0) 65 false =
      leavesY 0 2 := by decide

/-- VS7. -/
theorem test_shl_vs7 :
    oneStep 0x000C (wp 0x8000000000000001 1) (wp 0 0) 128 false =
      leavesFault 0x0F#8 := by decide

/-- VS10. -/
theorem test_shrl_vs10 :
    oneStep 0x000D (wp 1 0x8000000000000000) (wp 0 0) 64 false =
      leavesY 0x8000000000000000 0 := by decide

/-- VS12. -/
theorem test_shrl_vs12 :
    oneStep 0x000D (wp 1 0x8000000000000000) (wp 0 0) 200 false =
      leavesFault 0x0F#8 := by decide

/-- VS16. -/
theorem test_shra_vs16 :
    oneStep 0x000E (wp 1 0x8000000000000000) (wp 0 0) 100 false =
      leavesY 0xFFFFFFFFF8000000 0xFFFFFFFFFFFFFFFF := by decide

/-- VS20. -/
theorem test_shra_vs20 :
    oneStep 0x000E (wp 1 0x8000000000000000) (wp 0 0) 128 false =
      leavesFault 0x0F#8 := by decide

/-- VC2. -/
theorem test_cmpu_vc2 :
    oneStep 0x0010 (wp 0xFFFFFFFFFFFFFFFF 0) (wp 0 1) 0 false =
      leavesOrd 0b01#2 := by decide

/-- VC3. -/
theorem test_cmpu_vc3 :
    oneStep 0x0010 (wp 0 0x8000000000000000) (wp 0 0) 0 false =
      leavesOrd 0b10#2 := by decide

/-- VC6. -/
theorem test_cmps_vc6 :
    oneStep 0x0011 (wp 0 0) (wp 0xFFFFFFFFFFFFFFFF 0x7FFFFFFFFFFFFFFF) 0 false =
      leavesOrd 0b01#2 := by decide

/-- VC8. -/
theorem test_cmps_vc8 :
    oneStep 0x0011 (wp 0 0xFFFFFFFFFFFFFFFF) (wp 0xFFFFFFFFFFFFFFFF 0xFFFFFFFFFFFFFFFF) 0 false =
      leavesOrd 0b01#2 := by decide

/-- VC11. -/
theorem test_test_vc11 :
    oneStep 0x0012 (wp 0 1) (wp 0 0) 0 false =
      leavesF true := by decide

/-- VC10. -/
theorem test_test_vc10 :
    oneStep 0x0012 (wp 0 0) (wp 0 0) 0 false =
      leavesF false := by decide

/-- VC13. -/
theorem test_sext_8_vc13 :
    oneStep 0x0018 (wp 0xAB00000000000080 0x1234) (wp 0 0) 0 false =
      leavesY 0xFFFFFFFFFFFFFF80 0xFFFFFFFFFFFFFFFF := by decide

/-- VC15. -/
theorem test_sext_32_vc15 :
    oneStep 0x0058 (wp 0xAB00000080000000 0x1234) (wp 0 0) 0 false =
      leavesY 0xFFFFFFFF80000000 0xFFFFFFFFFFFFFFFF := by decide

/-- VC20. -/
theorem test_zext_8_vc20 :
    oneStep 0x0019 (wp 0xFFFFFFFFFFFFFFFF 0xFFFFFFFFFFFFFFFF) (wp 0 0) 0 false =
      leavesY 0xFF 0 := by decide

/-- VC22. -/
theorem test_zext_64_vc22 :
    oneStep 0x0079 (wp 0xFFFFFFFFFFFFFFFF 0xFFFFFFFFFFFFFFFF) (wp 0 0) 0 false =
      leavesY 0xFFFFFFFFFFFFFFFF 0 := by decide

/-- VC23. -/
theorem test_trunc_32_vc23 :
    oneStep 0x005A (wp 0x123456789ABCDEF0 0xFFFFFFFFFFFFFFFF) (wp 0 0) 0 false =
      leavesY 0x9ABCDEF0 0 := by decide

/-- VC26. -/
theorem test_trunc_16_vc26 :
    oneStep 0x003A (wp 0x123456789ABCDEF0 0xFFFFFFFFFFFFFFFF) (wp 0 0) 0 false =
      leavesY 0xDEF0 0 := by decide

/-- VI4. -/
theorem test_illegal_vi4 :
    oneStep 0x0017 (wp 1 2) (wp 3 4) 0 false =
      leavesFault 0x0B#8 := by decide

/-- VI9. -/
theorem test_illegal_vi9 :
    oneStep 0x0021 (wp 1 2) (wp 3 4) 0 false =
      leavesFault 0x0B#8 := by decide

/-! Traces of Algorithm D (95_test_vectors.md T1 to T6), and the other internal paths (43_multiply.md R171, R195, R196). -/

/-- T1: one correction. -/
theorem test_algorithm_d_t1 :
    algorithmD (wp 0x7FFFFFFFFFFFFFFE 0x8000000100000002) (wp 0x00000000FFFFFFFF 0x0000000180000001) =
      (wp 0x55555555 0, BitVec.ofNat 128 0x12AAAAAAD2AAAAAAB55555553) := by decide

/-- T2: an add-back without a correction. -/
theorem test_algorithm_d_t2 :
    algorithmD (wp 0x7FFFFFFF00000000 0xFFFFFFFE80000001) (wp 0x8000000180000001 0x00000000FFFFFFFF) =
      (wp 0xFFFFFFFE 0, BitVec.ofNat 128 0xFFFFFFFF0000000100000002) := by decide

/-- T3: the normalized digits of the setup, and the trial digits of both quotient digits after correction. -/
theorem test_algorithm_d_t3_digits :
    normDivisor (wp 0x8000000180000001 0x0000000080000001).toNat = [0x80000001, 0x80000001, 0x80000001] ∧
    normNumerator (wp 0x000000017FFFFFFF 0x8000000180000001).toNat (wp 0x8000000180000001 0x0000000080000001).toNat =
      [0x7FFFFFFF, 0x1, 0x80000001, 0x80000001, 0x0] ∧
    estimateDigit [0x80000001, 0x80000001, 0x80000001] [0x7FFFFFFF, 0x1, 0x80000001, 0x80000001, 0x0] 1 = 1 := by
  decide

/-- T4: an add-back, then a correction that the overflow of the trial remainder ends. -/
theorem test_algorithm_d_t4 :
    algorithmD (wp 0x0000000123456789 0xFFFFFFFFFFFFFFFF) (wp 0xFFFFFFFFFFFFFFFF 0x0000000000000001) =
      (wp 0x7FFFFFFFFFFFFFFF 0, BitVec.ofNat 128 0x18000000123456788) := by decide

/-- T5: source scenario 4 without the early exit. -/
theorem test_algorithm_d_t5 : algorithmD (wp 0 1) (wp 1 1) = (wp 0 0, wp 0 1) := by decide

/-- T6: a divisor of four digits. -/
theorem test_algorithm_d_t6 :
    algorithmD (wp 0xFFFFFFFFFFFFFFFF 0xFFFFFFFFFFFFFFFF) (wp 0xFFFFFFFFFFFFFFFF 0x7FFFFFFFFFFFFFFF) =
      (wp 2 0, wp 1 0) := by decide

/-- VM2, on the portable path. -/
theorem test_schoolbook_vm2 :
    schoolbookProduct 0x0123456789ABCDEF#64 0xFEDCBA9876543210#64 = wp 0x2236D88FE5618CF0 0x0121FA00AD77D742 := by decide

/-- VD13, the largest one-digit divisor. -/
theorem test_one_digit_vd13 :
    divideOneDigit (wp 0xFFFFFFFFFFFFFFFF 0xFFFFFFFFFFFFFFFF) (wp 0x00000000FFFFFFFF 0) =
      (wp 0x0000000100000001 0x0000000100000001, wp 0 0) := by decide

/-- VD14, the smallest two-digit divisor. -/
theorem test_two_steps_vd14 :
    divideTwoSteps (wp 0xFFFFFFFFFFFFFFFF 0xFFFFFFFFFFFFFFFF) (wp 0x0000000100000000 0) =
      (wp 0xFFFFFFFFFFFFFFFF 0x00000000FFFFFFFF, wp 0x00000000FFFFFFFF 0) := by decide

/-! Host lines and written programs (95 Part 3). -/

/-- The host about to run the line `l`, with these variables. -/
def hostAt (l : Line) (vars : List (Nat × HostVal)) : State := { State.reset with prog := [l], vars := vars }

/-- P5 line 1: SHIFT_RANGE gives v0 no value and sets the mark. -/
theorem test_p5_line1 :
    nextOf (step (hostAt (.issue (commandLine .shl { a := .lit (wp 1 0), cnt := .lit 128 } [0])) [(0, .bit true)])) =
      some { hostAt (.issue (commandLine .shl { a := .lit (wp 1 0), cnt := .lit 128 } [0])) [] with
        inp := { cmd := 0x000C, a := wp 1 0, b := 0, cnt := 128, cin := false, path := false }, status := 0x0F#8,
        line := 1, mark := true } := by decide

/-- P5 line 4: after a fault an ADD succeeds, and STICKY stays 1. -/
theorem test_p5_line4 :
    registersOf (runCommand { ports 0x0001 (wp 1 0) (wp 2 0) 0 false with status := 0x0B#8 }) =
      some (some (wp 3 0), none, none, none, 0x08#8) := by decide

/-- P5 line 5: a copy from a variable with no value sets the mark and gives v4 no value. -/
theorem test_p5_line5 :
    nextOf (step (hostAt (.copy 4 (.var 1)) [(3, .value (wp 3 0))])) =
      some { hostAt (.copy 4 (.var 1)) [(3, .value (wp 3 0))] with line := 1, mark := true } := by decide

/-- P5 line 6: reset clears STICKY, and v3 stays. -/
theorem test_p5_line6 :
    nextOf (step { hostAt .reset [(3, .value (wp 3 0))] with y := some (wp 3 0), status := 0x08#8, mark := true }) =
      some { hostAt .reset [(3, .value (wp 3 0))] with line := 1, mark := true } := by decide

/-- P6 line 2: the carry goes from one ADC64 to the next through a variable. -/
theorem test_p6_line2 :
    (nextOf (step (hostAt (.issue (commandLine .adc64
      { a := .lit (wp 0xFFFFFFFFFFFFFFF0 0), b := .lit (wp 0x10 0), cin := .var 1 } [2, 3])) [(1, .bit true)]))).map
        (fun t => (t.vars, t.mark)) =
      some ([(1, .bit true), (2, .value (wp 1 0)), (3, .bit true)], false) := by decide

/-- P3 line 2, `if f == 0 goto END`, with f = 0: the host leaves the loop. -/
theorem test_p3_line2 :
    (nextOf (step (hostAt (.ifGoto { var := 9, rel := .eq, lit := .value 0 } 6) [(9, .bit false)]))).map State.line =
      some 6 := by decide

/-- A host read of a register that a fault left with no value is a read fault of the host (R37). -/
theorem test_read_no_value : hostRead .z State.reset = .error (.readNoValue .z) := by rfl

/-- STATUS always holds a value (R39). -/
theorem test_read_status : hostRead .status { State.reset with status := 0x0D#8 } = .ok (.value 0x0D#128) := by rfl

/-- P1 line 1 as text. -/
theorem test_assemble_divu :
    assemble ["v2, v3 <- DIVU v0, v1".toList] =
      some [.issue { word := 0x000A, a := .var 0, b := .var 1, dsts := [(.y, 2), (.z, 3)] }] := by decide

/-- P2 line 1 as text. -/
theorem test_assemble_sext :
    assemble ["v0 <- sext.32 0xFFFFFFF9".toList] =
      some [.issue { word := 0x0058, a := .lit 0xFFFFFFF9#128, dsts := [(.y, 0)] }] := by decide

/-- The program P3 as text, its variable f written v9. -/
theorem test_assemble_p3 :
    assemble ["L1: v9 <- TEST v1              -- CMD 0x0012".toList, "    if v9 == 0 goto END".toList,
        "    v2 <- REMU v0, v1".toList, "    v0 <- v1".toList, "    v1 <- v2".toList, "    goto L1".toList,
        "END:".toList] =
      some [.issue { word := 0x0012, a := .var 1, dsts := [(.f, 9)] },
        .ifGoto { var := 9, rel := .eq, lit := .value 0 } 6,
        .issue { word := 0x000B, a := .var 0, b := .var 1, dsts := [(.y, 2)] },
        .copy 0 (.var 1), .copy 1 (.var 2), .goto 0] := by decide

/-- MULW is MUL, and ZERO the literal 0 (R90). -/
theorem test_assemble_pseudo :
    assemble ["v0 <- MULW v1, (2, 1)".toList, "v3 <- ZERO".toList] =
      some [.issue { word := 0x0009, a := .var 1, b := .lit (wp 2 1), dsts := [(.y, 0)] }, .copy 3 (.lit (.value 0))] := by
  decide

/-! Witnesses: for each statement with hypotheses, a state and operands that meet them, at the boundary of each clause. -/

/-- IllegalWordsRaiseIllegalOp, the illegal side: R86 (a), (b) and (c), each alone, at the ends of their ranges. -/
theorem witness_illegal_words :
    [0x0000#16, 0x000F#16, 0x0013#16, 0x0017#16, 0x001B#16, 0x001F#16, 0x0081#16, 0x8001#16, 0x0021#16, 0x0070#16].all
      (fun w => illegalWord w && decide (registersOf (runCommand (ports w 1 2 0 false)) = leavesFault 0x0B#8)) = true := by
  decide

/-- IllegalWordsRaiseIllegalOp, the legal side: the first and the last legal word, and one beside each gap. -/
theorem witness_legal_words :
    [0x0001#16, 0x000E#16, 0x0010#16, 0x0012#16, 0x0014#16, 0x0016#16, 0x0018#16, 0x007A#16].all
      (fun w => !illegalWord w && (decode w).isOk) = true := by decide

/-- ResetLineClearsEveryRegister: a reset line after a fault. -/
theorem witness_reset_line :
    ({ hostAt .reset [] with status := 0x0F#8 } : State).prog[({ hostAt .reset [] with status := 0x0F#8 } : State).line]? =
      some .reset := by decide

/-- OnlyResetClearsSticky: a successful command with STICKY set. -/
theorem witness_sticky_kept :
    let s : State := { hostAt (.issue { word := 0x0001 }) [] with status := 0x08#8 }
    statusSticky s.status = true ∧ s.prog[s.line]? ≠ some .reset ∧
      (nextOf (step s)).map (fun t => statusSticky t.status) = some true := by decide

/-- StepRunsTheDecodedCommand: a line whose operand is a variable, and its word's instruction. -/
theorem witness_step_decodes :
    let c : CmdLine := { word := 0x0001, a := .var 0, b := .lit 2, dsts := [(.y, 1)] }
    let s : State := hostAt (.issue c) [(0, .value 1)]
    s.prog[s.line]? = some (.issue c) ∧
      presentedInputs c s.vars = some { cmd := 0x0001, a := 1, b := 2, cnt := 0, cin := false, path := false } ∧
      decode c.word = .ok .add := by decide

/-- A state with values in Y and Z, a success after a fault, and two variables. -/
def busy : State :=
  { hostAt .reset [(1, .order 0b10#2), (4, .bit true)] with y := some (wp 1 2), z := some (wp 3 4), status := 0x08#8 }

/-- StepKeepsTheMachineInvariant: a state that is not the reset state meets it, and steps. -/
theorem witness_invariant : Inv busy ∧ ∃ t, step busy = .next t :=
  ⟨⟨by decide, by decide, by decide, by decide, by decide, by decide, by decide⟩, _, rfl⟩

/-- StepKeepsTheMachineInvariant: so does a state after a fault. -/
theorem witness_invariant_after_fault : Inv { hostAt (.goto 0) [] with status := 0x0D#8, mark := true } :=
  ⟨by decide, by decide, by decide, by decide, by decide, by decide, by decide⟩

/-- ExecChangesOnlyTheRegisters, PathIsNotObservable: a command that faults and one that does not answer a next state. -/
theorem witness_exec_next :
    (∃ t, exec .divu busy = .next t) ∧ (∃ t, exec .cmps busy = .next t) ∧ ∃ t, runCommand busy = .next t :=
  ⟨⟨_, rfl⟩, ⟨_, rfl⟩, _, rfl⟩

/-- SuccessWritesTheRegistersOfTheTable: every instruction succeeds on A = B = 1, CNT = 1. -/
theorem witness_success :
    allInstrs.all (fun i => (nextOf (exec i (ports 0 1 1 1 false))).map (fun t => statusFault t.status) == some false) =
      true := by decide

/-- FaultEffectOnTheState: each of the three causes. -/
theorem witness_faults :
    (nextOf (runCommand (ports 0x0013 1 1 0 false))).map (fun t => (statusFault t.status, t.status)) =
      some (true, 0x0B#8) ∧
    (nextOf (runCommand (ports 0x0016 1 0 0 false))).map (fun t => (statusFault t.status, t.status)) =
      some (true, 0x0D#8) ∧
    (nextOf (runCommand (ports 0x000E 1 1 128 false))).map (fun t => (statusFault t.status, t.status)) =
      some (true, 0x0F#8) := by decide

/-- OutputsIgnoreEarlierCommands: two different states with the same inputs. -/
theorem witness_same_inputs : busy ≠ State.reset ∧ busy.inp = State.reset.inp := by decide

/-- UnreadInputsHaveNoEffect: two inputs that differ, and agree on what each kind of operation reads. -/
theorem witness_reads_same :
    let x : Inputs := { cmd := 1, a := wp 5 6, b := wp 7 8, cnt := 9, cin := true, path := false }
    readsSame .add x { x with cnt := 1, cin := false } ∧ readsSame .adc64 x { x with a := wp 5 0, b := wp 7 1, cnt := 1 } ∧
      readsSame .wmul64 x { x with a := wp 5 0, cin := false } ∧ readsSame .inc x { x with b := 0 } ∧
      readsSame .shl x { x with b := 0, cin := false } ∧ readsSame (.sext .w8) x { x with a := wp 0x105 0 } ∧
      readsSame (.trunc .w64) x { x with a := wp 5 7 } := by
  unfold readsSame; decide

/-- ReadsAndRepeatedCommandsAreDeterministic: a read of a register that holds a value. -/
theorem witness_read :
    let s : State := { hostAt (.read 3 .ord) [] with ord := some 0b01#2 }
    s.prog[s.line]? = some (.read 3 .ord) ∧ hostRead .ord s = .ok (.order 0b01#2) := ⟨by decide, rfl⟩

/-- ReadsAndRepeatedCommandsAreDeterministic: each register with a value, and each without one. -/
theorem witness_register_contents :
    let s : State := { State.reset with y := some (wp 1 2), z := some (wp 3 4), f := some true, ord := some 0b10#2 }
    (s.y = some (wp 1 2) ∧ s.z = some (wp 3 4) ∧ s.f = some true ∧ s.ord = some 0b10#2) ∧
      State.reset.y = none ∧ State.reset.z = none ∧ State.reset.f = none ∧ State.reset.ord = none := by decide

/-- ReadsAndRepeatedCommandsAreDeterministic: a read of a register with no value, into a variable that had one. -/
theorem witness_read_no_value :
    let s : State := hostAt (.read 3 .z) [(3, .bit true)]
    s.prog[s.line]? = some (.read 3 .z) ∧ hostRead .z s = .error (.readNoValue .z) ∧ varsWf s.vars ∧ 4 ≠ 3 :=
  ⟨by decide, rfl, by decide, by decide⟩

/-- ReadsAndRepeatedCommandsAreDeterministic: one command after another with the same inputs. -/
theorem witness_repeated :
    let x : Inputs := { cmd := 0x000A, a := 7, b := 2, cnt := 0, cin := false, path := false }
    ∃ t u, runCommand { busy with inp := x } = .next t ∧ runCommand { t with inp := x } = .next u :=
  ⟨_, _, rfl, rfl⟩

/-- NegIsTwosComplementNegation: SMIN and 0. -/
theorem witness_neg : (ports 0x0007 smin 0 0 false).inp.a = smin ∧ (ports 0x0007 0 0 0 false).inp.a = 0 := by decide

/-- DivuQuotientAndRemainder, RemuRemainder: B = 1, the smallest divisor, and B = 0. -/
theorem witness_unsigned_divisors :
    (ports 0x000A umax 1 0 false).inp.b.toNat ≠ 0 ∧ (ports 0x000A umax 0 0 false).inp.b.toNat = 0 := by decide

/-- DivsTruncatingQuotientAndRemainder, RemsRemainderHasDividendSign: SMIN / -1, a pair beside it, and B = 0. -/
theorem witness_signed_divisors :
    let s := ports 0x0015 smin umax 0 false
    let s' := ports 0x0015 smin 1 0 false
    (s.inp.b.toNat ≠ 0 ∧ s.inp.a = smin ∧ s.inp.b = umax) ∧
      (s'.inp.b.toNat ≠ 0 ∧ ¬(s'.inp.a = smin ∧ s'.inp.b = umax)) ∧ (ports 0x0015 smin 0 0 false).inp.b.toNat = 0 := by
  decide

/-- The three shift statements: the largest count in range, and the smallest out of it. -/
theorem witness_shift_counts :
    (ports 0x000C 1 0 127 false).inp.cnt.toNat < 128 ∧ 128 ≤ (ports 0x000C 1 0 128 false).inp.cnt.toNat := by decide

/-- ShiftThereAndBack: the ends of its range. -/
theorem witness_shift_there_and_back : (0#32).toNat < 128 ∧ (127#32).toNat < 128 := by decide

/-- MultiplyLaws: two operands whose high words are 0. -/
theorem witness_low_operands : hi (wp 0xFFFFFFFFFFFFFFFF 0) = 0#64 ∧ hi (wp 3 0) = 0#64 := by decide

/-- UnsignedDivisionIdentity, with its two bounds: B = 1, 2^32 and 2^64. -/
theorem witness_division_identity :
    (1#128).toNat ≠ 0 ∧ ((wp 0x100000000 0).toNat ≠ 0 ∧ 2 ^ 32 ≤ (wp 0x100000000 0).toNat) ∧
      ((wp 0 1).toNat ≠ 0 ∧ 2 ^ 64 ≤ (wp 0 1).toNat) := by decide

/-- SignedDivisionIdentity: a negative pair, and one without a sign. -/
theorem witness_signed_identity :
    umax.toNat ≠ 0 ∧ (smax.toNat ≠ 0 ∧ smax.msb = false ∧ (0#128).msb = false) := by decide

/-- ComparisonLaws: operands of one sign, and a rising chain for each order. -/
theorem witness_comparison_laws :
    smin.msb = umax.msb ∧
    (resultOrd (issueOn .cmpu smax smin 0 false State.reset) = some 0b01#2 ∧
      resultOrd (issueOn .cmpu smin umax 0 false State.reset) = some 0b01#2) ∧
    (resultOrd (issueOn .cmps smin 0 0 false State.reset) = some 0b01#2 ∧
      resultOrd (issueOn .cmps 0 smax 0 false State.reset) = some 0b01#2) ∧
    resultOrd (issueOn .cmpu 5 5 0 false State.reset) = some 0b00#2 ∧
    resultOrd (issueOn .cmps umax umax 0 false State.reset) = some 0b00#2 := by decide

/-- ShortDivisorRoutinesMeetTheContract: the largest divisor of each routine. -/
theorem witness_short_divisors :
    ((wp 0xFFFFFFFF 0).toNat ≠ 0 ∧ (wp 0xFFFFFFFF 0).toNat < 2 ^ 32) ∧
      ((wp 0xFFFFFFFFFFFFFFFF 0).toNat ≠ 0 ∧ (wp 0xFFFFFFFFFFFFFFFF 0).toNat < 2 ^ 64) := by decide

/-- CorrectionLeavesAtMostOneTooMany, the first clause at its boundary. -/
theorem witness_correction_loop : 2 ^ 31 ≤ 0x80000000 ∧ 2 ≤ 2 := by decide

/-- CorrectionLeavesAtMostOneTooMany: the window of T2 at digit 0, where the trial digit is one too many. -/
theorem witness_trial_digit :
    let vn := [0x80000001, 0x80000001, 0xFFFFFFFF]
    let un := [0x0, 0x7FFFFFFF, 0x80000001, 0xFFFFFFFE, 0x0]
    2 ≤ vn.length ∧ (∀ d ∈ vn, d < 2 ^ 32) ∧ (∀ d ∈ un, d < 2 ^ 32) ∧ 2 ^ 31 ≤ vn.getD (vn.length - 1) 0 ∧
      0 + vn.length < un.length ∧ digitsValue ((un.drop 0).take (vn.length + 1)) < 2 ^ 32 * digitsValue vn := by decide

/-- AlgorithmDMeetsTheContract: the smallest divisor of two digits, and the largest divisor. -/
theorem witness_algorithm_d : 2 ^ 32 ≤ (wp 0x100000000 0).toNat ∧ 2 ^ 32 ≤ umax.toNat := by decide

/-- EveryDividePathMeetsTheContract: one divisor for each path of R194. -/
theorem witness_divide_paths :
    ((1#128).toNat ≠ 0 ∧ dividePath false 1#128 = .d1) ∧ dividePath false (wp 0x100000000 0) = .d2 ∧
      dividePath true (wp 0x100000000 0) = .dHw ∧ dividePath true (wp 0 1) = .dG := by decide

/-- CommandLineCopiesItsResults: a DIVU line that copies Y and Z, which hold a value, and F, which does not. -/
theorem witness_line_copies :
    let c : CmdLine := { word := 0x000A, a := .var 0, b := .lit 3, dsts := [(.y, 2), (.z, 3), (.f, 4)] }
    let s : State := hostAt (.issue c) [(0, .value (wp 0 1)), (4, .bit true)]
    let x : Inputs := { cmd := 0x000A, a := wp 0 1, b := 3, cnt := 0, cin := false, path := false }
    s.prog[s.line]? = some (.issue c) ∧ presentedInputs c s.vars = some x ∧ (c.dsts.map Prod.snd).Nodup ∧
      varsWf s.vars ∧ ∃ t, runCommand { s with inp := x } = .next t ∧ statusFault t.status = false ∧
        (∃ v, hostRead .y t = .ok v) ∧ hostRead .f t = .error (.readNoValue .f) :=
  ⟨by decide, by decide, by decide, by decide, _, rfl, by decide, ⟨_, rfl⟩, rfl⟩

/-- CommandLineFaultClearsItsDestinations: the same line with B = 0. -/
theorem witness_line_faults :
    let c : CmdLine := { word := 0x000A, a := .var 0, b := .lit 0, dsts := [(.y, 2), (.z, 0)] }
    let s : State := hostAt (.issue c) [(0, .value (wp 0 1)), (4, .bit true)]
    let x : Inputs := { cmd := 0x000A, a := wp 0 1, b := 0, cnt := 0, cin := false, path := false }
    s.prog[s.line]? = some (.issue c) ∧ presentedInputs c s.vars = some x ∧ varsWf s.vars ∧
      ∃ t, runCommand { s with inp := x } = .next t ∧ statusFault t.status = true :=
  ⟨by decide, by decide, by decide, _, rfl, by decide⟩

/-- ReadingNoValueSetsTheMark: a command, a copy, an `if` and a `while` that read v7, which has no value. -/
theorem witness_no_value :
    varsGet [(0, .bit true)] 7 = none ∧
    (hostAt (.issue { word := 1, b := .var 7 }) [(0, .bit true)]).prog[0]? = some (.issue { word := 1, b := .var 7 }) ∧
    (hostAt (.copy 0 (.var 7)) [(0, .bit true)]).prog[0]? = some (.copy 0 (.var 7)) ∧
    (hostAt (.ifGoto { var := 7, rel := .eq, lit := .bit true } 0) [(0, .bit true)]).prog[0]? =
      some (.ifGoto { var := 7, rel := .eq, lit := .bit true } 0) ∧
    (hostAt (.whileDo { var := 7, rel := .eq, lit := .bit true } 0) [(0, .bit true)]).prog[0]? =
      some (.whileDo { var := 7, rel := .eq, lit := .bit true } 0) := by decide

/-- HostCopiesAndControlLines: a copy of a literal and of a variable, a jump, a test of each truth, and no line left. -/
theorem witness_control_lines :
    let vars := [(0, HostVal.bit true), (1, HostVal.value (wp 5 0))]
    (hostAt (.copy 0 (.lit (.value 1))) vars).prog[0]? = some (.copy 0 (.lit (.value 1))) ∧
    ((hostAt (.copy 0 (.var 1)) vars).prog[0]? = some (.copy 0 (.var 1)) ∧ varsGet vars 1 = some (.value (wp 5 0))) ∧
    (hostAt (.goto 1) vars).prog[0]? = some (.goto 1) ∧
    ((hostAt (.ifGoto { var := 0, rel := .eq, lit := .bit true } 1) vars).prog[0]? =
        some (.ifGoto { var := 0, rel := .eq, lit := .bit true } 1) ∧
      testHolds { var := 0, rel := .eq, lit := .bit true } vars = some true) ∧
    ((hostAt (.whileDo { var := 1, rel := .ltu, lit := .value (wp 5 0) } 1) vars).prog[0]? =
        some (.whileDo { var := 1, rel := .ltu, lit := .value (wp 5 0) } 1) ∧
      testHolds { var := 1, rel := .ltu, lit := .value (wp 5 0) } vars = some false) ∧
    State.reset.prog.length ≤ State.reset.line := by decide

/-- HostCopiesAndControlLines: a variable of each kind of content. -/
theorem witness_test_contents :
    let vars := [(0, HostVal.bit true), (1, HostVal.value smin), (2, HostVal.order 0b01#2)]
    varsGet vars 0 = some (.bit true) ∧ varsGet vars 1 = some (.value smin) ∧ varsGet vars 2 = some (.order 0b01#2) := by
  decide

/-- FaultMarkIsNeverCleared, OnlyCommandsAndResetChangeTheRegisters: a copy with the mark set. -/
theorem witness_mark :
    let s : State := { hostAt (.copy 0 (.lit (.bit true))) [] with mark := true }
    s.mark = true ∧ (∀ c, s.prog[s.line]? ≠ some (.issue c)) ∧ s.prog[s.line]? ≠ some .reset ∧ ∃ t, step s = .next t :=
  ⟨rfl, by simp [hostAt, State.reset], by decide, _, rfl⟩

/-- MnemonicsNameTheirInstructions: a mnemonic in mixed case. -/
theorem witness_mnemonic : upperCase "aDc64".toList = asmName .adc64 := by decide

/-- StickyClearMeansNoFaultInTheRun: a program of one command and no reset, run to its end. -/
theorem witness_sticky_run :
    let s : State := (ports 0 1 2 0 false).withFetchWord 16 0x0001
    Line.reset ∉ s.prog ∧ ∃ t : State, Sys2Proof.core.run 2 s = .next t ∧ statusSticky t.status = false :=
  ⟨by decide, _, rfl, by decide⟩

end Sys2Proof.Tests
end

section
/-! What a command does, as a relation between two states with the same operands, and what that gives: the machine's
invariant, and that neither PATH nor an earlier command can be seen in a result. -/

namespace Sys2Proof.Machine

open Claims

/-- The outputs of one row of R85, with ORD one of the three codes of R36. -/
def Outputs.Legal (o : Outputs) : Prop :=
  (o.y.isSome, o.z.isSome, o.f.isSome, o.ord.isSome) ∈ legalPatterns ∧ o.ord ≠ some 0b11#2

theorem legal_yOnly (v : Value) : (yOnly v).Legal := ⟨by simp [yOnly, legalPatterns], nofun⟩

theorem legal_yAndF (v : Value) (c : Bool) : (yAndF v c).Legal := ⟨by simp [yAndF, legalPatterns], nofun⟩

theorem legal_yAndZ (q r : Value) : (yAndZ q r).Legal := ⟨by simp [yAndZ, legalPatterns], nofun⟩

theorem legal_fOnly (c : Bool) : (fOnly c).Legal := ⟨by simp [fOnly, legalPatterns], nofun⟩

theorem legal_ordOnly {o : BitVec 2} (h : o ≠ 0b11#2) : (ordOnly o).Legal :=
  ⟨by simp [ordOnly, legalPatterns], by simpa [ordOnly] using h⟩

theorem orderUnsigned_ne_three (a b : Value) : orderUnsigned a b ≠ 0b11#2 := by
  unfold orderUnsigned
  repeat' split
  all_goals decide

theorem orderSigned_ne_three (a b : Value) : orderSigned a b ≠ 0b11#2 := by
  unfold orderSigned
  repeat' split
  all_goals decide

/-- Two states' outcomes of one instruction or command: both complete with the same legal outputs, or both raise the same
fault. -/
def SameEffect (s s' : State) (r r' : Host.Outcome State Fault Refusal) : Prop :=
  (∃ o : Outputs, o.Legal ∧ r = .next (s.complete o) ∧ r' = .next (s'.complete o)) ∨
  (∃ c, r = .next (s.raiseFault c) ∧ r' = .next (s'.raiseFault c))

section operands
variable {s s' : State}

theorem sameEffect_writeOutputs {o : Outputs} (h : o.Legal) :
    SameEffect s s' (writeOutputs o s) (writeOutputs o s') := .inl ⟨o, h, rfl, rfl⟩

theorem sameEffect_shiftCommand (shift : Value → Nat → Value) (hA : opA s = opA s') (hk : opCount s = opCount s') :
    SameEffect s s' (shiftCommand shift s) (shiftCommand shift s') := by
  unfold shiftCommand
  rw [hA, hk]
  split
  · exact .inr ⟨_, rfl, rfl⟩
  · exact .inl ⟨_, legal_yOnly _, rfl, rfl⟩

theorem sameEffect_divideCommand {result : Value → Value → Outputs} (hl : ∀ a b, (result a b).Legal)
    (hA : opA s = opA s') (hB : opB s = opB s') :
    SameEffect s s' (divideCommand result s) (divideCommand result s') := by
  unfold divideCommand
  rw [hA, hB]
  split
  · exact .inr ⟨_, rfl, rfl⟩
  · exact .inl ⟨_, hl _ _, rfl, rfl⟩

/-- An instruction's effect is fixed by its four operands (R83, R88). -/
theorem exec_sameEffect (i : Instr) (hA : opA s = opA s') (hB : opB s = opB s') (hk : opCount s = opCount s')
    (hc : opCin s = opCin s') : SameEffect s s' (exec i s) (exec i s') := by
  cases i with
  | shl | shrl | shra => exact sameEffect_shiftCommand _ hA hk
  | divu | divs =>
    simp only [exec, execDivu, execDivs]
    exact sameEffect_divideCommand (fun _ _ => legal_yAndZ _ _) hA hB
  | remu | rems =>
    simp only [exec, execRemu, execRems]
    exact sameEffect_divideCommand (fun _ _ => legal_yOnly _) hA hB
  | adc64 | sbb64 =>
    simp only [exec, execAdc64, execSbb64, hA, hB, hc]
    exact sameEffect_writeOutputs (legal_yAndF _ _)
  | cmpu =>
    simp only [exec, execCmpu, hA, hB]
    exact sameEffect_writeOutputs (legal_ordOnly (orderUnsigned_ne_three _ _))
  | cmps =>
    simp only [exec, execCmps, hA, hB]
    exact sameEffect_writeOutputs (legal_ordOnly (orderSigned_ne_three _ _))
  | test =>
    simp only [exec, execTest, hA]
    exact sameEffect_writeOutputs (legal_fOnly _)
  | add | inc | sub | dec | neg | wmul64 | mul | muls | sext | zext | trunc =>
    simp only [exec, execAdd, execInc, execSub, execDec, execNeg, execWmul64, execMul, execMuls, execSext, execZext,
      execTrunc, hA, hB]
    exact sameEffect_writeOutputs (legal_yOnly _)

/-- A command's effect is fixed by its inputs, and PATH is none of them (R38, R40, R88). -/
theorem runCommand_sameEffect (p : Bool) (h : s'.inp = { s.inp with path := p }) :
    SameEffect s s' (runCommand s) (runCommand s') := by
  have hcmd : s'.inp.cmd = s.inp.cmd := by rw [h]
  unfold runCommand
  rw [hcmd]
  split
  · exact .inr ⟨_, rfl, rfl⟩
  · exact exec_sameEffect _ (by simp only [opA, h]) (by simp only [opB, h]) (by simp only [opCount, h])
      (by simp only [opCin, h])

end operands

theorem SameEffect.next_cases {s s' t t' : State} (h : SameEffect s s' (.next t) (.next t')) :
    (∃ o : Outputs, o.Legal ∧ t = s.complete o ∧ t' = s'.complete o) ∨
      ∃ c, t = s.raiseFault c ∧ t' = s'.raiseFault c := by
  rcases h with ⟨o, hl, h, h'⟩ | ⟨c, h, h'⟩ <;> cases h <;> cases h'
  · exact .inl ⟨o, hl, rfl, rfl⟩
  · exact .inr ⟨c, rfl, rfl⟩

/-- What one command can do, with outputs that are legal. -/
theorem runCommand_legal {s t : State} (h : runCommand s = .next t) :
    (∃ o : Outputs, o.Legal ∧ t = s.complete o) ∨ ∃ c, t = s.raiseFault c := by
  have heffect := runCommand_sameEffect (s := s) (s' := s) s.inp.path rfl
  rw [h] at heffect
  rcases heffect.next_cases with ⟨o, hl, ht, -⟩ | ⟨c, ht, -⟩
  · exact .inl ⟨o, hl, ht⟩
  · exact .inr ⟨c, ht⟩

/-- The invariant speaks of the output registers, STATUS and the variables alone. -/
theorem inv_congr {s t : State} (h : Inv s) (hy : t.y = s.y) (hz : t.z = s.z) (hf : t.f = s.f) (ho : t.ord = s.ord)
    (hs : t.status = s.status) (hv : varsWf s.vars → varsWf t.vars) : Inv t where
  reserved := hs ▸ h.reserved
  cause := hs ▸ h.cause
  sticky := hs ▸ h.sticky
  faultNoValue := by simpa only [valuePattern, hy, hz, hf, ho, hs] using h.faultNoValue
  pattern := by simpa only [valuePattern, hy, hz, hf, ho] using h.pattern
  order := ho ▸ h.order
  vars := hv h.vars

theorem inv_hostOnly {s t : State} (k : HostOnly s t) (h : Inv s) : Inv t := by
  obtain ⟨hy, hz, hf, ho, hs, -, -, -, -, hv⟩ := k
  exact inv_congr h hy hz hf ho hs hv

theorem inv_setLine {s : State} (n : Nat) (h : Inv s) : Inv { s with line := n } := inv_congr h rfl rfl rfl rfl rfl id

/-- A success leaves legal outputs, and FAULT and CAUSE 0, whatever the registers held. -/
theorem inv_complete {s : State} {o : Outputs} (hl : o.Legal) (hv : varsWf s.vars) : Inv (s.complete o) where
  reserved := by simp
  cause := by simp
  sticky := by simp
  faultNoValue := by simp
  pattern := hl.1
  order := hl.2
  vars := hv

/-- A fault leaves no output and sets FAULT, CAUSE and STICKY together. -/
theorem inv_raiseFault {s : State} (c : Cause) (hv : varsWf s.vars) : Inv (s.raiseFault c) where
  reserved := by simp
  cause := by simp [causeCode_ne_zero]
  sticky := by simp
  faultNoValue _ := rfl
  pattern := by simp [valuePattern, legalPatterns]
  order := nofun
  vars := hv

theorem inv_applyReset {s : State} (hv : varsWf s.vars) : Inv s.applyReset where
  reserved := by simp [statusReserved]
  cause := by simp [statusFault, statusCause]
  sticky := by simp [statusFault]
  faultNoValue _ := rfl
  pattern := by simp [valuePattern, legalPatterns]
  order := nofun
  vars := hv

theorem inv_runCommand {s t : State} (hv : varsWf s.vars) (h : runCommand s = .next t) : Inv t := by
  rcases runCommand_legal h with ⟨o, hl, rfl⟩ | ⟨c, rfl⟩
  · exact inv_complete hl hv
  · exact inv_raiseFault c hv

/-- Settles O10: a command establishes the register part of the invariant from any registers, reset does too, and every
other line is the host's. -/
theorem stepKeepsTheMachineInvariant : Obligations.StepKeepsTheMachineInvariant := by
  intro s t hs ht
  rcases step_cases s with ⟨-, h⟩ | ⟨c, inp, u, -, -, hu, h⟩ | ⟨-, h⟩ | ⟨l, u, n, -, -, -, hu, h⟩ <;>
    rw [h] at ht <;> cases ht
  · exact hs
  · have hInv : Inv u := inv_runCommand (s := s.present inp) hs.vars hu
    exact inv_setLine _ (inv_hostOnly (hostOnly_collectResults c.dsts u) hInv)
  · exact inv_setLine _ (inv_applyReset hs.vars)
  · exact inv_setLine n (inv_hostOnly hu hs)

/-- Settles O9: the reset state is what a reset line leaves of it. -/
theorem resetMeetsTheMachineInvariant : Obligations.ResetMeetsTheMachineInvariant :=
  inv_applyReset (s := State.reset) List.Pairwise.nil

/-- Settles O5. -/
theorem resetValuesOfTheRegisters : Obligations.ResetValuesOfTheRegisters := by
  unfold Obligations.ResetValuesOfTheRegisters
  decide

/-- Settles O12: completing and faulting both touch the registers alone. -/
theorem execChangesOnlyTheRegisters : Obligations.ExecChangesOnlyTheRegisters := by
  intro i s t h
  rcases exec_cases i s with ⟨o, ho⟩ | ⟨c, hc⟩
  · rw [h] at ho; cases ho; exact ⟨rfl, rfl, rfl, rfl, rfl⟩
  · rw [h] at hc; cases hc; exact ⟨rfl, rfl, rfl, rfl, rfl⟩

/-- Settles O16: both commands complete with the same outputs, or raise the same fault. -/
theorem outputsIgnoreEarlierCommands : Obligations.OutputsIgnoreEarlierCommands := by
  intro s s' t t' hi ht ht'
  have heffect := runCommand_sameEffect s.inp.path hi.symm
  rw [ht, ht'] at heffect
  rcases heffect.next_cases with ⟨o, -, rfl, rfl⟩ | ⟨c, rfl, rfl⟩ <;> simp

/-- Settles O17: the command's effect is the same with PATH changed, and no effect touches the inputs. -/
theorem pathIsNotObservable : Obligations.PathIsNotObservable := by
  intro s t p ht
  have heffect := runCommand_sameEffect (s := s) (s' := { s with inp := { s.inp with path := p } }) p rfl
  rw [ht] at heffect
  rcases heffect with ⟨o, -, h, h'⟩ | ⟨c, h, h'⟩
  · cases h; exact h'
  · cases h; exact h'

/-- Settles O57: of the cases of a step, only a command with its inputs and a reset change a register. -/
theorem onlyCommandsAndResetChangeTheRegisters : Obligations.OnlyCommandsAndResetChangeTheRegisters := by
  intro s t ht hIssue hReset
  rcases step_cases s with ⟨-, h⟩ | ⟨c, -, -, hc, -⟩ | ⟨hr, -⟩ | ⟨l, u, n, -, -, -, hu, h⟩
  · rw [h] at ht; cases ht; exact ⟨rfl, rfl, rfl, rfl, rfl, rfl⟩
  · exact absurd hc (hIssue c)
  · exact absurd hr hReset
  · rw [h] at ht; cases ht
    obtain ⟨hy, hz, hf, ho, hs, hi, -⟩ := hu
    exact ⟨hy, hz, hf, ho, hs, hi⟩

theorem step_completes (s : State) : ∃ t, step s = .next t := by
  rcases step_cases s with ⟨-, h⟩ | ⟨c, inp, u, -, -, -, h⟩ | ⟨-, h⟩ | ⟨l, u, n, -, -, -, -, h⟩ <;> exact ⟨_, h⟩

theorem step_prog {s t : State} (h : step s = .next t) : t.prog = s.prog := by
  rcases step_cases s with ⟨-, h'⟩ | ⟨c, inp, u, -, -, hu, h'⟩ | ⟨-, h'⟩ | ⟨l, u, n, -, -, -, hu, h'⟩ <;>
    rw [h'] at h <;> cases h
  · rfl
  · obtain ⟨-, -, -, -, -, -, hp, -⟩ := hostOnly_collectResults c.dsts u
    have hup : u.prog = s.prog := by rcases runCommand_legal hu with ⟨o, -, rfl⟩ | ⟨d, rfl⟩ <;> rfl
    exact hp.trans hup
  · rfl
  · obtain ⟨-, -, -, -, -, -, hp, -⟩ := hu
    exact hp

/-- A command that leaves STICKY clear did not fault (R39, R302). -/
theorem runCommand_sticky_clear {s t : State} (h : runCommand s = .next t) (ht : statusSticky t.status = false) :
    statusSticky s.status = false ∧ statusFault t.status = false := by
  rcases runCommand_legal h with ⟨o, -, rfl⟩ | ⟨c, rfl⟩
  · exact ⟨by simpa using ht, by simp⟩
  · simp at ht

/-- A step of a line that is no reset neither clears STICKY nor sets FAULT without it. -/
theorem step_sticky_clear {s t : State} (h : step s = .next t) (hr : s.prog[s.line]? ≠ some .reset)
    (ht : statusSticky t.status = false) :
    statusSticky s.status = false ∧ (statusFault s.status = false → statusFault t.status = false) := by
  rcases step_cases s with ⟨-, h'⟩ | ⟨c, inp, u, -, -, hu, h'⟩ | ⟨hr', -⟩ | ⟨l, u, n, -, -, -, hu, h'⟩
  · rw [h'] at h; cases h; exact ⟨ht, id⟩
  · rw [h'] at h; cases h
    obtain ⟨-, -, -, -, hst, -⟩ := hostOnly_collectResults c.dsts u
    rw [advance_status, hst] at ht ⊢
    obtain ⟨hs, hf⟩ := runCommand_sticky_clear hu ht
    exact ⟨hs, fun _ => hf⟩
  · exact absurd hr' hr
  · rw [h'] at h; cases h
    obtain ⟨-, -, -, -, hst, -⟩ := hu
    exact ⟨hst ▸ ht, fun hf => hst.symm ▸ hf⟩

theorem core_run_succ (k : Nat) {s u : State} (h : step s = .next u) :
    Sys2Proof.core.run (k + 1) s = Sys2Proof.core.run k u := by
  have hcore : Sys2Proof.core.step s = .next u := h
  simp only [Host.Core.run, hcore]

/-- The claim of O60, by induction on the length of the run: the run's first step is followed by a shorter run. -/
theorem run_sticky_clear (k : Nat) (s t : State) (hp : Line.reset ∉ s.prog)
    (hrun : Sys2Proof.core.run k s = .next t) (ht : statusSticky t.status = false) (j : Nat) (hj : j ≤ k) :
    ∃ u : State, Sys2Proof.core.run j s = .next u ∧ statusSticky u.status = false ∧
      (statusFault s.status = false → statusFault u.status = false) := by
  induction k generalizing s j with
  | zero =>
    obtain rfl : j = 0 := by omega
    cases hrun
    exact ⟨t, rfl, ht, id⟩
  | succ k ih =>
    obtain ⟨s', hs'⟩ := step_completes s
    rw [core_run_succ k hs'] at hrun
    have hp' : Line.reset ∉ s'.prog := step_prog hs' ▸ hp
    have hline : s.prog[s.line]? ≠ some .reset := fun h => hp (List.mem_of_getElem? h)
    obtain ⟨_, hu, hsticky', -⟩ := ih s' hp' hrun 0 (Nat.zero_le k)
    cases hu
    obtain ⟨hsticky, hfault⟩ := step_sticky_clear hs' hline hsticky'
    cases j with
    | zero => exact ⟨s, rfl, hsticky, id⟩
    | succ j =>
      obtain ⟨u, hu, hst, hf⟩ := ih s' hp' hrun j (by omega)
      exact ⟨u, (core_run_succ j hs').trans hu, hst, fun h => hf (hfault h)⟩

/-- Settles O60. -/
theorem stickyClearMeansNoFaultInTheRun : Obligations.StickyClearMeansNoFaultInTheRun :=
  fun k s t hp hrun ht j hj => run_sticky_clear k s t hp hrun ht j hj

end Sys2Proof.Machine
end

section
/-! Digit lists in base 2^32 (00_scope.md R9): a list of digits and the number it stands for carry the same information. -/

namespace Sys2Proof.Machine

open Config

/-- Every entry is a digit of the base (R9). -/
def Digits (ds : List Nat) : Prop := ∀ d ∈ ds, d < digitBase

theorem digitBase_pos : 0 < digitBase := by decide

theorem digits_cons {d : Nat} {ds : List Nat} : Digits (d :: ds) ↔ d < digitBase ∧ Digits ds := by
  simp [Digits]

theorem digits_append {xs ys : List Nat} : Digits (xs ++ ys) ↔ Digits xs ∧ Digits ys := by
  simp only [Digits, List.mem_append, or_imp, forall_and]

theorem Digits.take {ds : List Nat} (h : Digits ds) (j : Nat) : Digits (ds.take j) :=
  fun d hd => h d (List.mem_of_mem_take hd)

theorem Digits.drop {ds : List Nat} (h : Digits ds) (j : Nat) : Digits (ds.drop j) :=
  fun d hd => h d (List.mem_of_mem_drop hd)

@[simp] theorem digitsValue_nil : digitsValue [] = 0 := rfl

@[simp] theorem digitsValue_cons (d : Nat) (ds : List Nat) :
    digitsValue (d :: ds) = d + digitBase * digitsValue ds := rfl

theorem digitsValue_append (xs ys : List Nat) :
    digitsValue (xs ++ ys) = digitsValue xs + digitBase ^ xs.length * digitsValue ys := by
  induction xs with
  | nil => simp
  | cons x xs ih =>
    simp only [List.cons_append, digitsValue_cons, ih, List.length_cons, pow_succ]
    ring

theorem digitsValue_lt {ds : List Nat} (h : Digits ds) : digitsValue ds < digitBase ^ ds.length := by
  induction ds with
  | nil => simp
  | cons d ds ih =>
    obtain ⟨hd, hds⟩ := digits_cons.mp h
    have := Nat.mul_le_mul_left digitBase (ih hds)
    rw [digitsValue_cons, List.length_cons, pow_succ']
    rw [Nat.mul_succ] at this
    omega

section cons
variable {d : Nat} (v : Nat) (hd : d < digitBase)
include hd

theorem lowDigit_mod : (d + digitBase * v) % digitBase = d := by
  rw [Nat.add_mul_mod_self_left, Nat.mod_eq_of_lt hd]

theorem lowDigit_div : (d + digitBase * v) / digitBase = v := by
  rw [Nat.add_mul_div_left _ _ digitBase_pos, Nat.div_eq_of_lt hd, Nat.zero_add]

end cons

theorem digitsValue_take {ds : List Nat} (h : Digits ds) (j : Nat) :
    digitsValue (ds.take j) = digitsValue ds % digitBase ^ j := by
  induction ds generalizing j with
  | nil => simp
  | cons d ds ih =>
    obtain ⟨hd, hds⟩ := digits_cons.mp h
    cases j with
    | zero => simp [Nat.mod_one]
    | succ j =>
      rw [List.take_succ_cons, digitsValue_cons, digitsValue_cons, ih hds, pow_succ', Nat.mod_mul, lowDigit_mod _ hd,
        lowDigit_div _ hd]

theorem digitsValue_drop {ds : List Nat} (h : Digits ds) (j : Nat) :
    digitsValue (ds.drop j) = digitsValue ds / digitBase ^ j := by
  induction ds generalizing j with
  | nil => simp
  | cons d ds ih =>
    obtain ⟨hd, hds⟩ := digits_cons.mp h
    cases j with
    | zero => simp
    | succ j =>
      rw [List.drop_succ_cons, ih hds, digitsValue_cons, pow_succ', ← Nat.div_div_eq_div_mul, lowDigit_div _ hd]

theorem getD_eq_digitNat {ds : List Nat} (h : Digits ds) (i : Nat) :
    ds.getD i 0 = digitNat (digitsValue ds) i := by
  induction ds generalizing i with
  | nil => simp [digitNat]
  | cons d ds ih =>
    obtain ⟨hd, hds⟩ := digits_cons.mp h
    cases i with
    | zero => simp [digitNat, lowDigit_mod _ hd]
    | succ i =>
      rw [List.getD_cons_succ, ih hds, digitNat, digitNat, digitsValue_cons, pow_succ', ← Nat.div_div_eq_div_mul,
        lowDigit_div _ hd]

/-- One more digit of a number: the rest of it above position `m + 1`, and digit `m`. -/
theorem div_pow_eq_digitNat (n m : Nat) :
    n / digitBase ^ m = n / digitBase ^ (m + 1) * digitBase + digitNat n m := by
  rw [digitNat, pow_succ, ← Nat.div_div_eq_div_mul, Nat.div_add_mod']

theorem div_pow_eq_topDigit {n m : Nat} (h : n < digitBase ^ (m + 1)) : n / digitBase ^ m = digitNat n m := by
  rw [div_pow_eq_digitNat, Nat.div_eq_of_lt h, Nat.zero_mul, Nat.zero_add]

theorem digits_digitsOf (n k : Nat) : Digits (digitsOf n k) := by
  intro d hd
  obtain ⟨i, -, rfl⟩ := List.mem_map.mp hd
  exact Nat.mod_lt _ digitBase_pos

@[simp] theorem length_digitsOf (n k : Nat) : (digitsOf n k).length = k := by simp [digitsOf]

theorem digitsValue_digitsOf (n k : Nat) : digitsValue (digitsOf n k) = n % digitBase ^ k := by
  induction k with
  | zero => simp [digitsOf, Nat.mod_one]
  | succ k ih =>
    have happend : digitsOf n (k + 1) = digitsOf n k ++ [digitNat n k] := by
      simp [digitsOf, List.range_succ]
    rw [happend, digitsValue_append, ih, length_digitsOf, Nat.mod_pow_succ]
    simp [digitNat]

end Sys2Proof.Machine
end

section
/-! The short routines of the divider (44_divide.md R195, R196) meet the contract R190. -/

namespace Sys2Proof.Machine

open Config

/-- The contract R190 has one answer: any quotient with a remainder below the divisor is it. -/
theorem eq_divideExact {a b : Value} {q r : Nat} (h : a.toNat = q * b.toNat + r) (hr : r < b.toNat) :
    (BitVec.ofNat 128 q, BitVec.ofNat 128 r) = divideExact a b := by
  have hq : a.toNat / b.toNat = q := by
    rw [h, Nat.mul_comm, Nat.mul_add_div (by omega), Nat.div_eq_of_lt hr, Nat.add_zero]
  have hrem : a.toNat - q * b.toNat = r := by omega
  simp only [divideExact, hq, hrem]

@[simp] theorem oneDigitSteps_nil (d q rem : Nat) : oneDigitSteps d [] q rem = (q, rem) := rfl

/-- For an equation of the model that holds by `rfl` between two calls of one function: compared argument by argument,
they make the kernel count down from 2^32, which the `if` keeps it from doing. -/
theorem eq_of_eq_ite {α : Type} {a b : α} (h : a = if True then b else a) : a = b := h.trans (if_pos trivial)

theorem oneDigitSteps_cons (d x : Nat) (rest : List Nat) (q rem : Nat) :
    oneDigitSteps d (x :: rest) q rem =
      oneDigitSteps d rest (q * digitBase + (rem * digitBase + x) / d) ((rem * digitBase + x) % d) :=
  eq_of_eq_ite rfl

/-- The 64 by 32 steps keep the identity of a division, and the running remainder below the divisor (R195). -/
theorem oneDigitSteps_spec {d : Nat} (hd : 0 < d) (digits : List Nat) (q rem : Nat) (hrem : rem < d) :
    (oneDigitSteps d digits q rem).1 * d + (oneDigitSteps d digits q rem).2 =
        (q * d + rem) * digitBase ^ digits.length + digitsValue digits.reverse ∧
      (oneDigitSteps d digits q rem).2 < d := by
  induction digits generalizing q rem with
  | nil => exact ⟨by simp, hrem⟩
  | cons x rest ih =>
    rw [oneDigitSteps_cons]
    obtain ⟨hval, hlt⟩ := ih (q * digitBase + (rem * digitBase + x) / d) ((rem * digitBase + x) % d) (Nat.mod_lt _ hd)
    refine ⟨hval.trans ?_, hlt⟩
    have ht : (q * digitBase + (rem * digitBase + x) / d) * d + (rem * digitBase + x) % d =
        (q * d + rem) * digitBase + x := by
      have := Nat.div_add_mod' (rem * digitBase + x) d
      linear_combination this
    rw [ht, List.reverse_cons, digitsValue_append, List.length_reverse, List.length_cons, digitsValue_cons, digitsValue_nil,
      pow_succ]
    ring

theorem lo_toNat_of_lt {b : Value} (h : b.toNat < 2 ^ 64) : (lo b).toNat = b.toNat := by
  rw [lo_toNat, Nat.mod_eq_of_lt h]

theorem divideOneDigit_eq {a b : Value} (h0 : b.toNat ≠ 0) (h : b.toNat < 2 ^ 32) :
    divideOneDigit a b = divideExact a b := by
  obtain ⟨hval, hlt⟩ :=
    oneDigitSteps_spec (Nat.pos_of_ne_zero h0) (digitsOf a.toNat 4).reverse 0 0 (Nat.pos_of_ne_zero h0)
  have ha : a.toNat % digitBase ^ 4 = a.toNat := Nat.mod_eq_of_lt a.isLt
  rw [List.reverse_reverse, digitsValue_digitsOf, ha, Nat.zero_mul, Nat.zero_add, Nat.zero_mul, Nat.zero_add] at hval
  rw [divideOneDigit, lo_toNat_of_lt (by omega)]
  exact eq_divideExact hval.symm hlt

theorem divideTwoSteps_eq {a b : Value} (h0 : b.toNat ≠ 0) (h : b.toNat < 2 ^ 64) :
    divideTwoSteps a b = divideExact a b := by
  have hhigh := Nat.div_add_mod' (hi a).toNat b.toNat
  have hlow := Nat.div_add_mod' ((hi a).toNat % b.toNat * 2 ^ 64 + (lo a).toNat) b.toNat
  rw [divideTwoSteps, lo_toNat_of_lt h]
  refine eq_divideExact ?_ (Nat.mod_lt _ (Nat.pos_of_ne_zero h0))
  rw [value_eq_words a]
  linear_combination 2 ^ 64 * hhigh.symm + hlow.symm

end Sys2Proof.Machine
end

section
/-! Algorithm D, the trial digit (44_divide.md R198, R199): with a normalized divisor the correction loop leaves the true
quotient digit or one more. -/

namespace Sys2Proof.Machine

open Config

theorem correctDigit_succ (top second next k qhat rhat : Nat) :
    correctDigit top second next (k + 1) qhat rhat =
      if digitBase ≤ qhat ∨ rhat * digitBase + next < qhat * second then
        if digitBase ≤ rhat + top then (qhat - 1, rhat + top)
        else correctDigit top second next k (qhat - 1) (rhat + top)
      else (qhat, rhat) := rfl

/-- A divisor `v` and a window `w` seen through their leading digits: the divisor's two, the window's three as a two-digit
slice and the next one, all above `p`, a power of the base. The true quotient is one digit. -/
structure Leading (top second slice next p v w : Nat) : Prop where
  divisor : v / p = top * digitBase + second
  window : w / p = slice * digitBase + next
  pos : 0 < p
  top_pos : 0 < top
  second_lt : second < digitBase
  next_lt : next < digitBase
  one_digit : w < digitBase * v

namespace Leading
variable {top second slice next p v w : Nat} (L : Leading top second slice next p v w)
include L

theorem divisor_ge : (top * digitBase + second) * p ≤ v := L.divisor ▸ Nat.div_mul_le_self v p

theorem window_ge : (slice * digitBase + next) * p ≤ w := L.window ▸ Nat.div_mul_le_self w p

theorem divisor_lt : v < (top * digitBase + second + 1) * p := by
  rw [← L.divisor, Nat.mul_comm]; exact Nat.lt_mul_div_succ v L.pos

theorem window_lt : w < (slice * digitBase + next + 1) * p := by
  rw [← L.window, Nat.mul_comm]; exact Nat.lt_mul_div_succ w L.pos

theorem base_mul_le_divisor : digitBase * p ≤ v :=
  calc digitBase * p ≤ (top * digitBase + second) * p :=
        Nat.mul_le_mul_right p ((Nat.le_mul_of_pos_left _ L.top_pos).trans (Nat.le_add_right _ _))
    _ ≤ v := L.divisor_ge

/-- The trial digit is never too small (R198). -/
theorem lt_succ_trial {q : Nat} (h : slice < (q + 1) * top) : w < (q + 1) * v :=
  calc w < (slice * digitBase + next + 1) * p := L.window_lt
    _ ≤ ((slice + 1) * digitBase) * p := Nat.mul_le_mul_right p (by have := L.next_lt; rw [Nat.add_mul]; omega)
    _ ≤ ((q + 1) * top * digitBase) * p := Nat.mul_le_mul_right p (Nat.mul_le_mul_right _ h)
    _ = (q + 1) * ((top * digitBase) * p) := by ring
    _ ≤ (q + 1) * ((top * digitBase + second) * p) :=
        Nat.mul_le_mul_left _ (Nat.mul_le_mul_right p (Nat.le_add_right _ _))
    _ ≤ (q + 1) * v := Nat.mul_le_mul_left _ L.divisor_ge

/-- Where the loop's test asks for a decrement, the digit is too large (R199). -/
theorem lt_of_test {q r : Nat} (hs : slice = q * top + r)
    (ht : digitBase ≤ q ∨ r * digitBase + next < q * second) : w < q * v := by
  rcases ht with hq | hlt
  · exact L.one_digit.trans_le (Nat.mul_le_mul_right v hq)
  · calc w < (slice * digitBase + next + 1) * p := L.window_lt
      _ ≤ (q * (top * digitBase + second)) * p := Nat.mul_le_mul_right p (by subst hs; linarith)
      _ = q * ((top * digitBase + second) * p) := Nat.mul_assoc _ _ _
      _ ≤ q * v := Nat.mul_le_mul_left _ L.divisor_ge

/-- Where the test holds no more, the digit is at most one too large (R199). -/
theorem mul_le_of_not_test {q r : Nat} (hs : slice = q * top + r) (hq : q < digitBase)
    (ht : q * second ≤ r * digitBase + next) : q * v ≤ w + v :=
  calc q * v ≤ q * ((top * digitBase + second + 1) * p) := Nat.mul_le_mul_left _ L.divisor_lt.le
    _ = (q * (top * digitBase + second)) * p + q * p := by ring
    _ ≤ (slice * digitBase + next) * p + digitBase * p :=
        Nat.add_le_add (Nat.mul_le_mul_right p (by subst hs; linarith)) (Nat.mul_le_mul_right p hq.le)
    _ ≤ w + v := Nat.add_le_add L.window_ge L.base_mul_le_divisor

/-- A trial remainder that overflows a digit leaves a trial digit that does not (R199). -/
theorem trial_lt_of_remainder {q r : Nat} (hs : slice = q * top + r) (hr : digitBase ≤ r) : q < digitBase := by
  by_contra hq
  have hprod : digitBase * top ≤ q * top := Nat.mul_le_mul_right top (Nat.le_of_not_lt hq)
  have hlt : (slice * digitBase + next) * p < (digitBase * (top * digitBase + second + 1)) * p :=
    calc (slice * digitBase + next) * p ≤ w := L.window_ge
      _ < digitBase * v := L.one_digit
      _ ≤ digitBase * ((top * digitBase + second + 1) * p) := Nat.mul_le_mul_left _ L.divisor_lt.le
      _ = (digitBase * (top * digitBase + second + 1)) * p := (Nat.mul_assoc _ _ _).symm
  have hslice : slice * digitBase < digitBase * (top * digitBase + second + 1) :=
    (Nat.le_add_right _ next).trans_lt (Nat.lt_of_mul_lt_mul_right hlt)
  rw [Nat.mul_comm slice] at hslice
  have := Nat.lt_of_mul_lt_mul_left hslice
  have := L.second_lt
  have := Nat.mul_comm top digitBase
  omega

/-- The correction loop keeps the slice's division and a digit that is not too small, and ends for one of its two reasons:
its fuel is enough when that many top digits reach the base (R199, log 13). -/
theorem correctDigit_spec (fuel q r : Nat) (hs : slice = q * top + r) (hw : w < (q + 1) * v)
    (hfuel : digitBase ≤ r + fuel * top) :
    ∃ q' r', correctDigit top second next fuel q r = (q', r') ∧ slice = q' * top + r' ∧ w < (q' + 1) * v ∧
      (digitBase ≤ r' ∨ ¬(digitBase ≤ q' ∨ r' * digitBase + next < q' * second)) := by
  induction fuel generalizing q r with
  | zero => exact ⟨q, r, rfl, hs, hw, .inl (by omega)⟩
  | succ k ih =>
    rw [correctDigit_succ]
    split
    next ht =>
      have hlt := L.lt_of_test hs ht
      obtain ⟨q, rfl⟩ : ∃ m, q = m + 1 := Nat.exists_eq_succ_of_ne_zero (by rintro rfl; omega)
      have hs' : slice = q * top + (r + top) := by rw [hs]; ring
      rw [Nat.add_sub_cancel]
      split
      next hr => exact ⟨q, r + top, rfl, hs', hlt, .inl hr⟩
      next => exact ih q (r + top) hs' hlt (by rw [Nat.succ_mul] at hfuel; omega)
    next ht => exact ⟨q, r, rfl, hs, hw, .inr ht⟩

/-- The digit after correction is a digit, and the true one or one more (R199). -/
theorem correctDigit_bounds (htop : digitBase ≤ 3 * top) :
    (correctDigit top second next 3 (slice / top) (slice % top)).1 < digitBase ∧
      ((correctDigit top second next 3 (slice / top) (slice % top)).1 = w / v ∨
        (correctDigit top second next 3 (slice / top) (slice % top)).1 = w / v + 1) := by
  have hv : 0 < v := Nat.pos_of_mul_pos_left (Nat.zero_lt_of_lt L.one_digit)
  have htrial : slice < (slice / top + 1) * top := by
    rw [Nat.mul_comm]; exact Nat.lt_mul_div_succ slice L.top_pos
  obtain ⟨q, r, hqr, hs, hw, hend⟩ := L.correctDigit_spec 3 (slice / top) (slice % top)
    (Nat.div_add_mod' slice top).symm (L.lt_succ_trial htrial) (by omega)
  rw [hqr]
  have hq : q < digitBase ∧ q * second ≤ r * digitBase + next := by
    rcases hend with hr | ht
    · have hq := L.trial_lt_of_remainder hs hr
      exact ⟨hq, (Nat.mul_le_mul hq.le L.second_lt.le).trans
        ((Nat.mul_le_mul_right _ hr).trans (Nat.le_add_right _ _))⟩
    · omega
  have hlow : w / v < q + 1 := (Nat.div_lt_iff_lt_mul hv).mpr hw
  have hhigh : q ≤ w / v + 1 := by
    rw [← Nat.add_div_right w hv]
    exact (Nat.le_div_iff_mul_le hv).mpr (L.mul_le_of_not_test hs hq.1 hq.2)
  exact ⟨hq.1, by omega⟩

end Leading

/-- A divisor as R197 leaves it: at least two digits, the top one with its top bit set. -/
structure Normalized (vn : List Nat) : Prop where
  two_digits : 2 ≤ vn.length
  digits : Digits vn
  top : 2 ^ 31 ≤ vn.getD (vn.length - 1) 0

theorem digitNat_lt_digitBase (n i : Nat) : digitNat n i < digitBase := Nat.mod_lt _ digitBase_pos

/-- The leading digits of a normalized divisor of `m + 2` digits and of a window one digit longer. -/
theorem leading_of_digits {v w m : Nat} (hv : v < digitBase ^ (m + 2)) (hw : w < digitBase ^ (m + 3))
    (htop : 0 < digitNat v (m + 1)) (h : w < digitBase * v) :
    Leading (digitNat v (m + 1)) (digitNat v m) (digitNat w (m + 2) * digitBase + digitNat w (m + 1)) (digitNat w m)
      (digitBase ^ m) v w where
  divisor := by rw [div_pow_eq_digitNat, div_pow_eq_topDigit hv]
  window := by rw [div_pow_eq_digitNat w m, div_pow_eq_digitNat w (m + 1), div_pow_eq_topDigit hw]
  pos := Nat.pow_pos digitBase_pos
  top_pos := htop
  second_lt := digitNat_lt_digitBase _ _
  next_lt := digitNat_lt_digitBase _ _
  one_digit := h

/-- The window `un[j .. j+n]` that quotient digit j works on (R200). -/
def digitWindow (un : List Nat) (j n : Nat) : List Nat := (un.drop j).take (n + 1)

theorem getD_digitWindow (un : List Nat) (j : Nat) {n i : Nat} (h : i ≤ n) :
    (digitWindow un j n).getD i 0 = un.getD (j + i) 0 := by
  simp [digitWindow, List.getD_eq_getElem?_getD, List.getElem?_drop, Nat.lt_succ_of_le h]

theorem length_digitWindow {un : List Nat} {j n : Nat} (h : j + n < un.length) :
    (digitWindow un j n).length = n + 1 := by
  simp only [digitWindow, List.length_take, List.length_drop]
  omega

theorem digits_digitWindow {un : List Nat} (h : Digits un) (j n : Nat) : Digits (digitWindow un j n) :=
  (h.drop j).take (n + 1)

/-- The estimate, with the indices of R198 and R199 for a divisor of `m + 2` digits. The correction loop is abstract in the
proof, so that the kernel does not try to evaluate its tests against 2^32. -/
theorem estimateDigit_eq {vn : List Nat} (un : List Nat) (j : Nat) {m : Nat} (hm : vn.length = m + 2) :
    estimateDigit vn un j =
      (correctDigit (vn.getD (m + 1) 0) (vn.getD m 0) (un.getD (j + m) 0) 3
        ((un.getD (j + (m + 2)) 0 * digitBase + un.getD (j + (m + 1)) 0) / vn.getD (m + 1) 0)
        ((un.getD (j + (m + 2)) 0 * digitBase + un.getD (j + (m + 1)) 0) % vn.getD (m + 1) 0)).1 := by
  obtain ⟨correct, hcorrect⟩ : ∃ f, f = correctDigit := ⟨_, rfl⟩
  rw [show estimateDigit = _ by delta estimateDigit; exact rfl, ← hcorrect]
  simp only [hm]
  rfl

/-- The estimate of one quotient digit (R198, R199), on a window below the base times the divisor. -/
theorem estimateDigit_bounds {vn un : List Nat} {j : Nat} (N : Normalized vn) (hu : Digits un)
    (hlen : j + vn.length < un.length)
    (h : digitsValue (digitWindow un j vn.length) < digitBase * digitsValue vn) :
    estimateDigit vn un j < digitBase ∧
      (estimateDigit vn un j = digitsValue (digitWindow un j vn.length) / digitsValue vn ∨
        estimateDigit vn un j = digitsValue (digitWindow un j vn.length) / digitsValue vn + 1) := by
  obtain ⟨m, hm⟩ : ∃ m, vn.length = m + 2 := Nat.exists_eq_add_of_le' N.two_digits
  have hwin := digits_digitWindow hu j vn.length
  have hv : digitsValue vn < digitBase ^ (m + 2) := hm ▸ digitsValue_lt N.digits
  have hwlen : (digitWindow un j vn.length).length = m + 3 := by rw [length_digitWindow hlen, hm]
  have hw : digitsValue (digitWindow un j vn.length) < digitBase ^ (m + 3) := hwlen ▸ digitsValue_lt hwin
  have htop : 2 ^ 31 ≤ digitNat (digitsValue vn) (m + 1) := by
    have := N.top
    rwa [hm, getD_eq_digitNat N.digits] at this
  have hbase : digitBase = 2 ^ 32 := rfl
  have digit (i : Nat) (hi : i ≤ m + 2) :
      un.getD (j + i) 0 = digitNat (digitsValue (digitWindow un j vn.length)) i := by
    rw [← getD_eq_digitNat hwin, getD_digitWindow un j (hm ▸ hi)]
  rw [estimateDigit_eq un j hm, getD_eq_digitNat N.digits, getD_eq_digitNat N.digits, digit m (by omega),
    digit (m + 1) (by omega), digit (m + 2) le_rfl]
  exact (leading_of_digits hv hw (by omega) h).correctDigit_bounds (by omega)

end Sys2Proof.Machine
end

section
/-! Algorithm D, one quotient digit and the loop over them (44_divide.md R200 to R202). -/

namespace Sys2Proof.Machine

open Config

/-- One digit of a subtraction with a borrow in and a borrow out (R200). -/
theorem subtractDigit_spec {u s borrow : Nat} (hu : u < digitBase) (hs : s < digitBase) (hb : borrow ≤ 1) :
    (((u : Int) - (s : Int) - (borrow : Int)) % (digitBase : Int)).toNat < digitBase ∧
      (if (u : Int) - (s : Int) - (borrow : Int) < 0 then 1 else 0) ≤ 1 ∧
      (((u : Int) - (s : Int) - (borrow : Int)) % (digitBase : Int)).toNat + s + borrow =
        u + (if (u : Int) - (s : Int) - (borrow : Int) < 0 then 1 else 0) * digitBase := by
  have hbase : digitBase = 4294967296 := rfl
  rw [hbase] at hu hs ⊢
  split <;> omega

theorem multiplySubtract_nil (qhat u : Nat) (us : List Nat) (carry borrow : Nat) :
    multiplySubtract qhat [] (u :: us) carry borrow =
      ((((u : Int) - (carry : Int) - (borrow : Int)) % (digitBase : Int)).toNat :: us,
        if (u : Int) - (carry : Int) - (borrow : Int) < 0 then 1 else 0) := rfl

theorem multiplySubtract_cons (qhat v u : Nat) (vs us : List Nat) (carry borrow : Nat) :
    multiplySubtract qhat (v :: vs) (u :: us) carry borrow =
      let s := (qhat * v + carry) % digitBase
      let t : Int := (u : Int) - (s : Int) - (borrow : Int)
      let r := multiplySubtract qhat vs us ((qhat * v + carry) / digitBase) (if t < 0 then 1 else 0)
      ((t % (digitBase : Int)).toNat :: r.1, r.2) := rfl

/-- Multiply and subtract (R200): the new window, and a last borrow that says by one power of the base that the subtraction
went below 0. -/
theorem multiplySubtract_spec {qhat : Nat} (hq : qhat < digitBase) {vn window : List Nat} (hv : Digits vn)
    (hw : Digits window) (hlen : window.length = vn.length + 1) {carry borrow : Nat} (hc : carry < digitBase)
    (hb : borrow ≤ 1) :
    Digits (multiplySubtract qhat vn window carry borrow).1 ∧
      (multiplySubtract qhat vn window carry borrow).1.length = window.length ∧
      (multiplySubtract qhat vn window carry borrow).2 ≤ 1 ∧
      digitsValue (multiplySubtract qhat vn window carry borrow).1 + qhat * digitsValue vn + carry + borrow =
        digitsValue window + (multiplySubtract qhat vn window carry borrow).2 * digitBase ^ window.length := by
  induction vn generalizing window carry borrow with
  | nil =>
    obtain ⟨u, rfl⟩ := List.length_eq_one_iff.mp hlen
    obtain ⟨hu, -⟩ := digits_cons.mp hw
    obtain ⟨hd, hborrow, hval⟩ := subtractDigit_spec hu hc hb
    rw [multiplySubtract_nil]
    exact ⟨digits_cons.mpr ⟨hd, nofun⟩, rfl, hborrow, by simpa using hval⟩
  | cons v vs ih =>
    obtain ⟨u, us, rfl⟩ := List.exists_cons_of_length_eq_add_one hlen
    obtain ⟨hv0, hvs⟩ := digits_cons.mp hv
    obtain ⟨hu, hus⟩ := digits_cons.mp hw
    have hcarry : (qhat * v + carry) / digitBase < digitBase := Nat.div_lt_of_lt_mul <|
      calc qhat * v + carry < qhat * digitBase + digitBase :=
            Nat.add_lt_add_of_le_of_lt (Nat.mul_le_mul_left qhat hv0.le) hc
        _ = (qhat + 1) * digitBase := (Nat.succ_mul _ _).symm
        _ ≤ digitBase * digitBase := Nat.mul_le_mul_right _ hq
    obtain ⟨hd, hborrow, hval⟩ := subtractDigit_spec hu (Nat.mod_lt (qhat * v + carry) digitBase_pos) hb
    obtain ⟨hdigits, hlength, hlast, hrest⟩ := ih hvs hus (Nat.succ.inj hlen) hcarry hborrow
    have hp := Nat.div_add_mod (qhat * v + carry) digitBase
    rw [multiplySubtract_cons]
    refine ⟨digits_cons.mpr ⟨hd, hdigits⟩, congrArg Nat.succ hlength, hlast, ?_⟩
    simp only [digitsValue_cons, List.length_cons, pow_succ]
    linear_combination digitBase * hrest + hval + hp.symm

theorem addBack_nil (u : Nat) (us : List Nat) (carry : Nat) :
    addBack [] (u :: us) carry = (u + carry) % digitBase :: us := rfl

theorem addBack_cons (v u : Nat) (vs us : List Nat) (carry : Nat) :
    addBack (v :: vs) (u :: us) carry =
      (u + v + carry) % digitBase :: addBack vs us ((u + v + carry) / digitBase) := rfl

/-- Add back (R201): the sum, without the carry that leaves the window. -/
theorem addBack_spec {vn window : List Nat} (hw : Digits window) (hlen : window.length = vn.length + 1) (carry : Nat) :
    Digits (addBack vn window carry) ∧ (addBack vn window carry).length = window.length ∧
      digitsValue (addBack vn window carry) =
        (digitsValue window + digitsValue vn + carry) % digitBase ^ window.length := by
  induction vn generalizing window carry with
  | nil =>
    obtain ⟨u, rfl⟩ := List.length_eq_one_iff.mp hlen
    rw [addBack_nil]
    exact ⟨digits_cons.mpr ⟨Nat.mod_lt _ digitBase_pos, nofun⟩, rfl, by simp⟩
  | cons v vs ih =>
    obtain ⟨u, us, rfl⟩ := List.exists_cons_of_length_eq_add_one hlen
    obtain ⟨hdigits, hlength, hval⟩ :=
      ih (digits_cons.mp hw).2 (Nat.succ.inj hlen) ((u + v + carry) / digitBase)
    have hsum : u + digitBase * digitsValue us + (v + digitBase * digitsValue vs) + carry =
        (u + v + carry) + digitBase * (digitsValue us + digitsValue vs) := by ring
    rw [addBack_cons]
    refine ⟨digits_cons.mpr ⟨Nat.mod_lt _ digitBase_pos, hdigits⟩, congrArg Nat.succ hlength, ?_⟩
    rw [digitsValue_cons, digitsValue_cons, digitsValue_cons, List.length_cons, pow_succ', Nat.mod_mul, hval, hsum,
      Nat.add_mul_mod_self_left, Nat.add_mul_div_left _ _ digitBase_pos, Nat.add_comm (_ / _)]

/-- The window and the stored digit, from a subtraction and its last borrow (R201). -/
def fixUp (vn : List Nat) (qhat : Nat) (r : List Nat × Nat) : List Nat × Nat :=
  if r.2 = 1 then (addBack vn r.1 0, qhat - 1) else (r.1, qhat)

/-- The window and the digit that quotient digit j leaves (R198 to R201). -/
def windowResult (vn un : List Nat) (j : Nat) : List Nat × Nat :=
  fixUp vn (estimateDigit vn un j)
    (multiplySubtract (estimateDigit vn un j) vn (digitWindow un j vn.length) 0 0)

theorem quotientDigit_eq (vn un : List Nat) (j : Nat) :
    quotientDigit vn un j =
      (un.take j ++ (windowResult vn un j).1 ++ un.drop (j + vn.length + 1), (windowResult vn un j).2) := rfl

theorem Normalized.value_pos {vn : List Nat} (N : Normalized vn) : 0 < digitsValue vn := by
  refine Nat.pos_of_ne_zero fun h => ?_
  have htop := N.top
  rw [getD_eq_digitNat N.digits, h] at htop
  simp [digitNat] at htop

/-- One window divided by the divisor (R198 to R201): where the estimate is one too large, the borrow says so and the
divisor is added back. -/
theorem windowResult_spec {vn un : List Nat} {j : Nat} (N : Normalized vn) (hu : Digits un)
    (hlen : j + vn.length < un.length)
    (h : digitsValue (digitWindow un j vn.length) < digitBase * digitsValue vn) :
    Digits (windowResult vn un j).1 ∧ (windowResult vn un j).1.length = vn.length + 1 ∧
      digitsValue (windowResult vn un j).1 = digitsValue (digitWindow un j vn.length) % digitsValue vn ∧
      (windowResult vn un j).2 = digitsValue (digitWindow un j vn.length) / digitsValue vn := by
  have hwin := digits_digitWindow hu j vn.length
  have hwlen := length_digitWindow hlen
  obtain ⟨hq, hestimate⟩ := estimateDigit_bounds N hu hlen h
  rw [windowResult]
  generalize estimateDigit vn un j = qhat at *
  generalize digitWindow un j vn.length = window at *
  obtain ⟨hdigits, hlength, hlast, hval⟩ := multiplySubtract_spec hq N.digits hwin hwlen digitBase_pos (Nat.zero_le 1)
  generalize multiplySubtract qhat vn window 0 0 = r at *
  have hlt := digitsValue_lt hdigits
  have hmod := Nat.mod_lt (digitsValue window) N.value_pos
  have hdiv := Nat.div_add_mod' (digitsValue window) (digitsValue vn)
  have hfits : digitsValue vn ≤ digitBase ^ window.length := (digitsValue_lt N.digits).le.trans
    (Nat.pow_le_pow_right digitBase_pos (by omega))
  rw [hlength] at hlt
  rw [fixUp]
  split
  next hborrow =>
    obtain ⟨hdigits', hlength', hval'⟩ := addBack_spec hdigits (hlength.trans hwlen) 0
    rw [hborrow] at hval
    rcases hestimate with rfl | rfl
    · omega
    · rw [Nat.succ_mul] at hval
      have hsum : digitsValue r.1 + digitsValue vn + 0 =
          digitsValue window % digitsValue vn + digitBase ^ window.length := by omega
      refine ⟨hdigits', hlength'.trans (hlength.trans hwlen), ?_, rfl⟩
      rw [hval', hlength, hsum, Nat.add_mod_right, Nat.mod_eq_of_lt (by omega)]
  next hborrow =>
    have hzero : r.2 = 0 := by omega
    rw [hzero] at hval
    rcases hestimate with rfl | rfl
    · have hvalue : digitsValue r.1 = digitsValue window % digitsValue vn := by omega
      exact ⟨hdigits, hlength.trans hwlen, hvalue, rfl⟩
    · rw [Nat.succ_mul] at hval
      omega

/-- One quotient digit takes the largest multiple of the divisor at position j off the numerator. -/
theorem quotientDigit_spec {vn un : List Nat} {j : Nat} (N : Normalized vn) (hu : Digits un)
    (hlen : j + vn.length < un.length) (h : digitsValue un < digitsValue vn * digitBase ^ (j + 1)) :
    Digits (quotientDigit vn un j).1 ∧ (quotientDigit vn un j).1.length = un.length ∧
      digitsValue (quotientDigit vn un j).1 < digitsValue vn * digitBase ^ j ∧
      digitsValue un =
        digitsValue (quotientDigit vn un j).1 + (quotientDigit vn un j).2 * digitBase ^ j * digitsValue vn := by
  have hpow : 0 < digitBase ^ j := Nat.pow_pos digitBase_pos
  have htotal : digitsValue un < digitBase ^ (j + vn.length + 1) := h.trans_le <|
    calc digitsValue vn * digitBase ^ (j + 1) ≤ digitBase ^ vn.length * digitBase ^ (j + 1) :=
          Nat.mul_le_mul_right _ (digitsValue_lt N.digits).le
      _ = digitBase ^ (j + vn.length + 1) := by rw [← pow_add]; congr 1; omega
  have hwindow : digitsValue (digitWindow un j vn.length) = digitsValue un / digitBase ^ j := by
    rw [digitWindow, digitsValue_take (hu.drop j), digitsValue_drop hu, Nat.mod_eq_of_lt]
    refine Nat.div_lt_of_lt_mul ?_
    rwa [← pow_add, ← Nat.add_assoc]
  have hone : digitsValue (digitWindow un j vn.length) < digitBase * digitsValue vn := by
    rw [hwindow]
    refine Nat.div_lt_of_lt_mul (h.trans_eq ?_)
    ring
  obtain ⟨hdigits, hlength, hrem, hquot⟩ := windowResult_spec N hu hlen hone
  rw [hwindow] at hrem hquot
  have hvalue : digitsValue (quotientDigit vn un j).1 =
      digitsValue un % digitBase ^ j + digitBase ^ j * (digitsValue un / digitBase ^ j % digitsValue vn) := by
    rw [quotientDigit_eq, List.append_assoc, digitsValue_append, digitsValue_append, digitsValue_take hu,
      digitsValue_drop hu, Nat.div_eq_of_lt htotal, hrem, List.length_take_of_le (by omega), Nat.mul_zero, Nat.add_zero]
  refine ⟨?_, ?_, ?_, ?_⟩
  · rw [quotientDigit_eq]
    exact digits_append.mpr ⟨digits_append.mpr ⟨hu.take j, hdigits⟩, hu.drop _⟩
  · rw [quotientDigit_eq]
    simp only [List.length_append, List.length_take, List.length_drop, hlength]
    omega
  · rw [hvalue, Nat.mul_comm (digitsValue vn)]
    calc digitsValue un % digitBase ^ j + digitBase ^ j * (digitsValue un / digitBase ^ j % digitsValue vn)
        < digitBase ^ j * (digitsValue un / digitBase ^ j % digitsValue vn + 1) := by
          rw [Nat.mul_succ, Nat.add_comm]
          exact Nat.add_lt_add_left (Nat.mod_lt _ hpow) _
      _ ≤ digitBase ^ j * digitsValue vn := Nat.mul_le_mul_left _ (Nat.mod_lt _ N.value_pos)
  · have hlow := Nat.mod_add_div (digitsValue un) (digitBase ^ j)
    have hhigh := Nat.mod_add_div (digitsValue un / digitBase ^ j) (digitsValue vn)
    have hdigit : (quotientDigit vn un j).2 = digitsValue un / digitBase ^ j / digitsValue vn := hquot
    rw [hvalue, hdigit]
    linear_combination hlow.symm + digitBase ^ j * hhigh.symm

theorem quotientDigits_zero (vn un : List Nat) (q : Nat) :
    quotientDigits vn un 0 q = ((quotientDigit vn un 0).1, q + (quotientDigit vn un 0).2 * digitBase ^ 0) := rfl

theorem quotientDigits_succ (vn un : List Nat) (k q : Nat) :
    quotientDigits vn un (k + 1) q =
      quotientDigits vn (quotientDigit vn un (k + 1)).1 k
        (q + (quotientDigit vn un (k + 1)).2 * digitBase ^ (k + 1)) := eq_of_eq_ite rfl

/-- The loop of R198 takes the whole quotient off the numerator. -/
theorem quotientDigits_spec {vn un : List Nat} {j : Nat} (N : Normalized vn) (hu : Digits un)
    (hlen : j + vn.length < un.length) (h : digitsValue un < digitsValue vn * digitBase ^ (j + 1)) (q : Nat) :
    Digits (quotientDigits vn un j q).1 ∧ digitsValue (quotientDigits vn un j q).1 < digitsValue vn ∧
      digitsValue un + q * digitsValue vn =
        (quotientDigits vn un j q).2 * digitsValue vn + digitsValue (quotientDigits vn un j q).1 := by
  induction j generalizing un q with
  | zero =>
    obtain ⟨hdigits, -, hlt, hval⟩ := quotientDigit_spec N hu hlen h
    rw [quotientDigits_zero]
    refine ⟨hdigits, by simpa using hlt, ?_⟩
    rw [hval]
    ring
  | succ k ih =>
    obtain ⟨hdigits, hlength, hlt, hval⟩ := quotientDigit_spec N hu hlen h
    obtain ⟨hdigits', hlt', hval'⟩ := ih hdigits (by omega) hlt
      (q + (quotientDigit vn un (k + 1)).2 * digitBase ^ (k + 1))
    rw [quotientDigits_succ]
    refine ⟨hdigits', hlt', Eq.trans ?_ hval'⟩
    rw [hval]
    ring

end Sys2Proof.Machine
end

section
/-! Algorithm D as a whole (44_divide.md R197 to R202), and the divider on every path of R194. -/

namespace Sys2Proof.Machine

open Config

/-- `digitCount` finds the highest nonzero digit of a divisor of at least two digits (R197). -/
theorem digitCount_spec {b : Nat} (hb : digitBase ≤ b) (hb' : b < digitBase ^ 4) :
    ∃ m, m ≤ 2 ∧ digitCount b = m + 2 ∧ b < digitBase ^ (m + 2) ∧ digitNat b (m + 1) ≠ 0 := by
  have below {i : Nat} (h : b < digitBase ^ (i + 1)) (h0 : digitNat b i = 0) : b < digitBase ^ i := by
    have htop := div_pow_eq_topDigit h
    rw [h0] at htop
    exact (Nat.div_eq_zero_iff_lt (Nat.pow_pos digitBase_pos)).mp htop
  unfold digitCount
  split
  next h3 => exact ⟨2, le_rfl, rfl, hb', h3⟩
  next h3 =>
    have hb3 := below hb' (not_not.mp h3)
    split
    next h2 => exact ⟨1, by omega, rfl, hb3, h2⟩
    next h2 =>
      have hb2 := below hb3 (not_not.mp h2)
      split
      next h1 => exact ⟨0, by omega, rfl, hb2, h1⟩
      next h1 =>
        have hb1 := below hb2 (not_not.mp h1)
        rw [pow_one] at hb1
        omega

/-- The normalization shift puts a nonzero digit's top bit at the top of the digit, and shifts nothing out (R197). -/
theorem clz32_spec {d : Nat} (h0 : d ≠ 0) (h : d < 2 ^ 32) :
    2 ^ 31 ≤ d * 2 ^ clz32 d ∧ (d + 1) * 2 ^ clz32 d ≤ 2 ^ 32 := by
  have hlog : Nat.log2 d < 32 := (Nat.log2_lt h0).mpr h
  have hlow : 2 ^ Nat.log2 d ≤ d := Nat.log2_self_le h0
  have hhigh : d + 1 ≤ 2 ^ (Nat.log2 d + 1) := Nat.lt_log2_self
  rw [clz32]
  constructor
  · calc 2 ^ 31 = 2 ^ Nat.log2 d * 2 ^ (31 - Nat.log2 d) := by rw [← pow_add]; congr 1; omega
      _ ≤ d * 2 ^ (31 - Nat.log2 d) := Nat.mul_le_mul_right _ hlow
  · calc (d + 1) * 2 ^ (31 - Nat.log2 d) ≤ 2 ^ (Nat.log2 d + 1) * 2 ^ (31 - Nat.log2 d) :=
          Nat.mul_le_mul_right _ hhigh
      _ = 2 ^ 32 := by rw [← pow_add]; congr 1; omega

/-- The normalized divisor (R197): the divisor shifted, no bit lost, its top digit's top bit set. -/
theorem normDivisor_spec {b : Nat} (hb : digitBase ≤ b) (hb' : b < digitBase ^ 4) :
    Normalized (normDivisor b) ∧ digitsValue (normDivisor b) = b * 2 ^ normShift b ∧
      (normDivisor b).length = digitCount b ∧ digitCount b ≤ 4 ∧ digitBase ^ (digitCount b - 1) ≤ b := by
  obtain ⟨m, hm, hcount, hlt, hne⟩ := digitCount_spec hb hb'
  have htop : b / digitBase ^ (m + 1) = digitNat b (m + 1) := div_pow_eq_topDigit hlt
  have hpow : 0 < digitBase ^ (m + 1) := Nat.pow_pos digitBase_pos
  obtain ⟨hbit, hfit⟩ := clz32_spec hne (digitNat_lt_digitBase _ _)
  have hshift : normShift b = clz32 (digitNat b (m + 1)) := by simp [normShift, hcount]
  rw [← hshift] at hbit hfit
  have hlow : digitNat b (m + 1) * digitBase ^ (m + 1) ≤ b := htop ▸ Nat.div_mul_le_self b _
  have hhigh : b < (digitNat b (m + 1) + 1) * digitBase ^ (m + 1) := by
    rw [← htop, Nat.mul_comm]; exact Nat.lt_mul_div_succ b hpow
  have hsmall : b * 2 ^ normShift b < digitBase ^ (m + 2) :=
    calc b * 2 ^ normShift b < (digitNat b (m + 1) + 1) * digitBase ^ (m + 1) * 2 ^ normShift b :=
          Nat.mul_lt_mul_of_pos_right hhigh (by positivity)
      _ = (digitNat b (m + 1) + 1) * 2 ^ normShift b * digitBase ^ (m + 1) := Nat.mul_right_comm _ _ _
      _ ≤ digitBase * digitBase ^ (m + 1) := Nat.mul_le_mul_right _ hfit
      _ = digitBase ^ (m + 2) := (pow_succ' _ _).symm
  have hvalue : digitsValue (normDivisor b) = b * 2 ^ normShift b := by
    rw [normDivisor, digitsValue_digitsOf, hcount, Nat.mod_eq_of_lt hsmall]
  have hdigits : Digits (normDivisor b) := digits_digitsOf _ _
  refine ⟨⟨by simp [normDivisor, hcount], hdigits, ?_⟩, hvalue, length_digitsOf _ _, by omega, ?_⟩
  · rw [getD_eq_digitNat hdigits, hvalue, normDivisor, length_digitsOf, hcount, Nat.add_succ_sub_one,
      ← div_pow_eq_topDigit hsmall]
    refine (Nat.le_div_iff_mul_le hpow).mpr ?_
    calc 2 ^ 31 * digitBase ^ (m + 1) ≤ digitNat b (m + 1) * 2 ^ normShift b * digitBase ^ (m + 1) :=
          Nat.mul_le_mul_right _ hbit
      _ = digitNat b (m + 1) * digitBase ^ (m + 1) * 2 ^ normShift b := Nat.mul_right_comm _ _ _
      _ ≤ b * 2 ^ normShift b := Nat.mul_le_mul_right _ hlow
  · rw [hcount]
    exact (Nat.le_mul_of_pos_left _ (Nat.pos_of_ne_zero hne)).trans hlow

/-- The normalized numerator (R197): its five digits hold it whole. -/
theorem digitsValue_normNumerator {a b : Nat} (ha : a < digitBase ^ 4) (hs : 2 ^ normShift b ≤ digitBase) :
    digitsValue (normNumerator a b) = a * 2 ^ normShift b := by
  rw [normNumerator, digitsValue_digitsOf, Nat.mod_eq_of_lt]
  calc a * 2 ^ normShift b < digitBase ^ 4 * 2 ^ normShift b := Nat.mul_lt_mul_of_pos_right ha (by positivity)
    _ ≤ digitBase ^ 4 * digitBase := Nat.mul_le_mul_left _ hs
    _ = digitBase ^ 5 := (pow_succ _ _).symm

theorem digits_normNumerator (a b : Nat) : Digits (normNumerator a b) := digits_digitsOf _ _

theorem length_normNumerator (a b : Nat) : (normNumerator a b).length = 5 := length_digitsOf _ _

theorem two_pow_normShift_le (b : Nat) : 2 ^ normShift b ≤ digitBase :=
  Nat.pow_le_pow_right (by decide) ((Nat.sub_le 31 _).trans (by decide))

/-- A division of scaled operands gives the quotient as it is, and the remainder scaled (R202). -/
theorem division_of_scaled {a b q v k : Nat} (hk : 0 < k) (h : a * k = q * (b * k) + v) (hv : v < b * k) :
    a = q * b + v / k ∧ v / k < b := by
  have hdvd : k ∣ v := (Nat.dvd_add_right (Dvd.intro_left (q * b) (Nat.mul_assoc q b k))).mp (h ▸ Nat.dvd_mul_left k a)
  obtain ⟨c, rfl⟩ := hdvd
  rw [Nat.mul_div_cancel_left c hk]
  refine ⟨Nat.eq_of_mul_eq_mul_right hk (h.trans (by ring)), ?_⟩
  rw [Nat.mul_comm] at hv
  exact Nat.lt_of_mul_lt_mul_right hv

/-- The loop of Algorithm D, on the normalized operands of `a` and `b`. -/
def algorithmDDigits (a b : Nat) : List Nat × Nat :=
  quotientDigits (normDivisor b) (normNumerator a b) (4 - digitCount b) 0

theorem algorithmD_eq_digits (a b : Value) :
    algorithmD a b =
      (BitVec.ofNat 128 (algorithmDDigits a.toNat b.toNat).2,
        BitVec.ofNat 128 (digitsValue ((algorithmDDigits a.toNat b.toNat).1.take (digitCount b.toNat)) /
          2 ^ normShift b.toNat)) := rfl

theorem algorithmDDigits_spec {a b : Nat} (ha : a < digitBase ^ 4) (hb : digitBase ≤ b) (hb' : b < digitBase ^ 4) :
    a * 2 ^ normShift b = (algorithmDDigits a b).2 * (b * 2 ^ normShift b) +
        digitsValue ((algorithmDDigits a b).1.take (digitCount b)) ∧
      digitsValue ((algorithmDDigits a b).1.take (digitCount b)) < b * 2 ^ normShift b := by
  obtain ⟨N, hdivisor, hlength, hcount, hle⟩ := normDivisor_spec hb hb'
  have hnumerator := digitsValue_normNumerator ha (two_pow_normShift_le b)
  have htwo := N.two_digits
  have hfits : digitsValue (normNumerator a b) < digitsValue (normDivisor b) * digitBase ^ (4 - digitCount b + 1) := by
    rw [hnumerator, hdivisor, Nat.mul_right_comm]
    refine Nat.mul_lt_mul_of_pos_right ?_ (by positivity)
    calc a < digitBase ^ 4 := ha
      _ = digitBase ^ (digitCount b - 1) * digitBase ^ (4 - digitCount b + 1) := by rw [← pow_add]; congr 1; omega
      _ ≤ b * digitBase ^ (4 - digitCount b + 1) := Nat.mul_le_mul_right _ hle
  obtain ⟨hdigits, hlt, hval⟩ := quotientDigits_spec N (digits_normNumerator a b)
    (by rw [length_normNumerator]; omega) hfits 0
  have hshort := hlt.trans (digitsValue_lt N.digits)
  rw [hlength] at hshort
  rw [hdivisor] at hlt hval
  rw [hnumerator, Nat.zero_mul, Nat.add_zero] at hval
  rw [algorithmDDigits, digitsValue_take hdigits, Nat.mod_eq_of_lt hshort]
  exact ⟨hval, hlt⟩

theorem algorithmD_eq {a b : Value} (hb : 2 ^ 32 ≤ b.toNat) : algorithmD a b = divideExact a b := by
  obtain ⟨hval, hlt⟩ := algorithmDDigits_spec a.isLt hb b.isLt
  obtain ⟨hdivision, hrem⟩ := division_of_scaled (by positivity) hval hlt
  rw [algorithmD_eq_digits]
  exact eq_divideExact hdivision hrem

/-- The early exit (R203). -/
theorem earlyExit_eq {a b : Value} (h : a.toNat < b.toNat) : (0, a) = divideExact a b := by
  have := eq_divideExact (q := 0) (by rw [Nat.zero_mul, Nat.zero_add]) h
  rwa [BitVec.ofNat_toNat, BitVec.setWidth_eq] at this

theorem hi_eq_zero_iff (b : Value) : hi b = 0 ↔ b.toNat < 2 ^ 64 := by
  rw [BitVec.toNat_eq, hi_toNat]
  exact Nat.div_eq_zero_iff_lt (by decide)

/-- The divisors that a path of R194 is for. -/
def DividePath.Takes (p : DividePath) (b : Nat) : Prop :=
  match p with
  | .dHw => b < 2 ^ 64
  | .d1 => b < 2 ^ 32
  | .d2 => 2 ^ 32 ≤ b ∧ b < 2 ^ 64
  | .dG => 2 ^ 64 ≤ b

theorem dividePath_takes (fast : Bool) (b : Value) : (dividePath fast b).Takes b.toNat := by
  unfold dividePath
  split
  next hlong => exact Nat.le_of_not_lt (mt (hi_eq_zero_iff b).mpr hlong)
  next hshort =>
    have hlt := (hi_eq_zero_iff b).mp (not_not.mp hshort)
    rw [lo_toNat_of_lt hlt]
    split
    · exact hlt
    · split
      next h32 => exact h32
      next h32 => exact ⟨Nat.le_of_not_lt h32, hlt⟩

theorem dividerWith_eq (fast twoDigit early : Bool) {a b : Value} (h0 : b.toNat ≠ 0) :
    dividerWith fast twoDigit early a b = divideExact a b := by
  unfold dividerWith
  split
  next hearly => exact earlyExit_eq hearly.2
  next =>
    have hpath := dividePath_takes fast b
    generalize dividePath fast b = p at hpath ⊢
    cases p with
    | dHw => exact divideTwoSteps_eq h0 hpath
    | d1 => exact divideOneDigit_eq h0 hpath
    | d2 =>
      obtain ⟨hlow, hhigh⟩ := hpath
      cases twoDigit with
      | true => exact algorithmD_eq hlow
      | false => exact divideTwoSteps_eq h0 hhigh
    | dG => exact algorithmD_eq (Nat.le_trans (by decide) hpath)

/-- Settles O51: each path of R194 meets the contract on the divisors that it is taken for. -/
theorem everyDividePathMeetsTheContract : Obligations.EveryDividePathMeetsTheContract :=
  fun _ _ h0 => ⟨fun fast twoDigit early => dividerWith_eq fast twoDigit early h0, fun _ => dividerWith_eq _ _ _ h0⟩

end Sys2Proof.Machine
end

section
/-! What the host's read of each register answers, and that neither a read line nor a repeated command changes a register
(10_state.md R37, R39; 70_reset_and_hazards.md R343, R345). -/

namespace Sys2Proof.Machine

section registers
variable {s : State}

theorem hostRead_y_some {v : Value} (h : s.y = some v) : hostRead .y s = .ok (.value v) := by simp only [hostRead, h]

theorem hostRead_y_none (h : s.y = none) : hostRead .y s = .error (.readNoValue .y) := by simp only [hostRead, h]

theorem hostRead_z_some {v : Value} (h : s.z = some v) : hostRead .z s = .ok (.value v) := by simp only [hostRead, h]

theorem hostRead_z_none (h : s.z = none) : hostRead .z s = .error (.readNoValue .z) := by simp only [hostRead, h]

theorem hostRead_f_some {b : Bool} (h : s.f = some b) : hostRead .f s = .ok (.bit b) := by simp only [hostRead, h]

theorem hostRead_f_none (h : s.f = none) : hostRead .f s = .error (.readNoValue .f) := by simp only [hostRead, h]

theorem hostRead_ord_some {o : BitVec 2} (h : s.ord = some o) : hostRead .ord s = .ok (.order o) := by
  simp only [hostRead, h]

theorem hostRead_ord_none (h : s.ord = none) : hostRead .ord s = .error (.readNoValue .ord) := by
  simp only [hostRead, h]

end registers

/-- STATUS always holds its 8 bits, and is read zero-extended (R39, log 10). -/
theorem hostRead_status (s : State) : hostRead .status s = .ok (.value (BitVec.ofNat 128 s.status.toNat)) := by
  rw [BitVec.ofNat_toNat]
  rfl

/-- A read line copies one register and moves past itself (R343). -/
theorem step_of_read {s : State} {d : Nat} {r : OutReg} (h : s.prog[s.line]? = some (.read d r)) :
    step s = .next (copyRegister r d s).advance := by
  have hfetch : fetchLine s = some (.read d r) := h
  simp only [step, hfetch, runLine]

theorem hostRead_advance (r : OutReg) (s : State) : hostRead r s.advance = hostRead r s := by cases r <;> rfl

section copyRegister
variable {s : State} {r : OutReg}

/-- A register with a value gives it to the variable and keeps the mark. -/
theorem copyRegister_of_ok (n : Nat) {v : HostVal} (h : hostRead r s = .ok v) :
    varsGet (copyRegister r n s).vars n = some v ∧ (copyRegister r n s).mark = s.mark := by
  simp only [copyRegister, h, setVar_vars, setVar_mark, and_true]
  exact varsGet_insert_same s.vars n v

/-- A register without a value sets the mark and leaves the variable without one (R37, log 6). -/
theorem copyRegister_of_error (n : Nat) {e : Fault} (h : hostRead r s = .error e) :
    (copyRegister r n s).mark = true ∧ (varsWf s.vars → varsGet (copyRegister r n s).vars n = none) := by
  simp only [copyRegister, h, setMark_mark, setMark_vars, setVar_vars, true_and]
  exact varsGet_set_same n none

theorem varsGet_copyRegister_other (r : OutReg) (s : State) {n k : Nat} (h : k ≠ n) :
    varsGet (copyRegister r n s).vars k = varsGet s.vars k := by
  rcases copyRegister_cases r n s with ⟨v, -, hcopy⟩ | ⟨e, -, hcopy⟩ <;> rw [hcopy]
  · exact varsGet_set_other s.vars (some v) h
  · exact varsGet_set_other s.vars none h

end copyRegister

/-- Both commands have one effect (R88). Of the earlier state it keeps STICKY alone, which a success leaves as it was and
a fault sets (R39). -/
theorem runCommand_repeated {s t u : State} {inp : Inputs} (ht : runCommand { s with inp := inp } = .next t)
    (hu : runCommand { t with inp := inp } = .next u) :
    u.y = t.y ∧ u.z = t.z ∧ u.f = t.f ∧ u.ord = t.ord ∧ u.status = t.status := by
  have heffect := runCommand_sameEffect (s := { s with inp := inp }) (s' := { t with inp := inp }) inp.path rfl
  rw [ht, hu] at heffect
  rcases heffect.next_cases with ⟨o, -, rfl, rfl⟩ | ⟨c, rfl, rfl⟩
  · refine ⟨rfl, rfl, rfl, rfl, ?_⟩
    simp only [complete_status, statusSticky_statusWord]
  · exact ⟨rfl, rfl, rfl, rfl, rfl⟩

/-- Settles O19: a read line is a copy of one register, and a command's effect is fixed by its inputs. -/
theorem readsAndRepeatedCommandsAreDeterministic : Obligations.ReadsAndRepeatedCommandsAreDeterministic := by
  refine ⟨fun s => ?registers, fun s d r hread => ?readLine, fun s t u inp => runCommand_repeated⟩
  case registers =>
    exact ⟨fun _ => hostRead_y_some, hostRead_y_none, fun _ => hostRead_z_some, hostRead_z_none,
      fun _ => hostRead_f_some, hostRead_f_none, fun _ => hostRead_ord_some, hostRead_ord_none, hostRead_status s⟩
  case readLine =>
    have hhost := hostOnly_copyRegister r d s
    have hreads (r' : OutReg) : hostRead r' (copyRegister r d s).advance = hostRead r' s :=
      (hostRead_advance r' _).trans (hostRead_hostOnly hhost r')
    obtain ⟨hy, hz, hf, ho, hs, hi, hp, hl, -, -⟩ := hhost
    exact ⟨(copyRegister r d s).advance, step_of_read hread, hy, hz, hf, ho, hs, hi, hp, congrArg (· + 1) hl, hreads,
      fun _ => copyRegister_of_ok d, fun _ => copyRegister_of_error d, fun _ => varsGet_copyRegister_other r s⟩

end Sys2Proof.Machine
end

section
/-! The command word (30_encoding.md R80 to R87): an instruction is the word's operation code and width field with
RSV = 0, and the words without an instruction are those of R86. -/

namespace Sys2Proof

theorem fieldOpc_toNat (w : BitVec 16) : (fieldOpc w).toNat = w.toNat % 32 := by simp [fieldOpc]

theorem fieldWid_toNat (w : BitVec 16) : (fieldWid w).toNat = w.toNat / 32 % 4 := by
  simp [fieldWid, Nat.shiftRight_eq_div_pow]

theorem fieldRsv_toNat (w : BitVec 16) : (fieldRsv w).toNat = w.toNat / 128 := by
  have h := w.isLt
  simp only [fieldRsv, BitVec.extractLsb'_toNat, Nat.shiftRight_eq_div_pow]
  omega

/-- The fields cover the word (R81). -/
theorem word_ext {v w : BitVec 16} (hopc : fieldOpc v = fieldOpc w) (hwid : fieldWid v = fieldWid w)
    (hrsv : fieldRsv v = fieldRsv w) : v = w := by
  rw [← BitVec.toNat_inj, fieldOpc_toNat, fieldOpc_toNat] at hopc
  rw [← BitVec.toNat_inj, fieldWid_toNat, fieldWid_toNat] at hwid
  rw [← BitVec.toNat_inj, fieldRsv_toNat, fieldRsv_toNat] at hrsv
  apply BitVec.eq_of_toNat_eq
  omega

open Laws.WordFields in
/-- The per-instruction law of the word's fields, for any instruction (R81, R82, R84). -/
theorem wordFields : ∀ i, Statement i
  | .add => add | .adc64 => adc64 | .inc => inc | .sub => sub | .sbb64 => sbb64 | .dec => dec | .neg => neg
  | .wmul64 => wmul64 | .mul => mul | .divu => divu | .remu => remu | .shl => shl | .shrl => shrl | .shra => shra
  | .cmpu => cmpu | .cmps => cmps | .test => test | .muls => muls | .divs => divs | .rems => rems
  | .sext w => sext w | .zext w => zext w | .trunc w => trunc w

/-- The opcode map has each instruction at its operation code and width field (R84). -/
theorem decodeOpc_opcode (i : Instr) : decodeOpc (opcode i) (widField i) = .ok i := by
  cases i with
  | sext w | zext w | trunc w => cases w <;> rfl
  | _ => rfl

/-- The opcode map has an instruction in no other of its 32 by 4 cells (R84). -/
theorem fields_of_decodeOpc {opc : BitVec 5} {wid : BitVec 2} {i : Instr} (h : decodeOpc opc wid = .ok i) :
    opc = opcode i ∧ wid = widField i := by
  have hcells : ∀ (opc : BitVec 5) (wid : BitVec 2),
      (decodeOpc opc wid).toOption.all (fun i => decide (opc = opcode i ∧ wid = widField i)) = true := by decide
  simpa [h, Except.toOption] using hcells opc wid

/-- The cells without an instruction are those of R86 (a) and (c). -/
theorem decodeOpc_error_iff (opc : BitVec 5) (wid : BitVec 2) :
    (∃ e, decodeOpc opc wid = .error e) ↔
      (opc.toNat = 0x00 ∨ opc.toNat = 0x0F ∨ opc.toNat = 0x13 ∨ opc.toNat = 0x17 ∨ (0x1B ≤ opc.toNat ∧ opc.toNat ≤ 0x1F)) ∨
        (wid ≠ 0b00#2 ∧ opc.toNat ≠ 0x18 ∧ opc.toNat ≠ 0x19 ∧ opc.toNat ≠ 0x1A) := by
  have hError (r : Except DecodeError Instr) : (∃ e, r = .error e) ↔ r.isOk = false := by
    cases r <;> simp [Except.isOk, Except.toBool]
  rw [hError]
  revert opc wid; decide

/-- The decoder reads exactly the fields of the instruction's word. -/
theorem decode_eq_ok_iff {w : BitVec 16} {i : Instr} :
    decode w = .ok i ↔ fieldRsv w = 0#9 ∧ fieldOpc w = opcode i ∧ fieldWid w = widField i := by
  unfold decode
  constructor
  · split
    · next hrsv => exact fun h => ⟨hrsv, fields_of_decodeOpc h⟩
    · exact nofun
  · rintro ⟨hrsv, hopc, hwid⟩
    rw [if_pos hrsv, hopc, hwid, decodeOpc_opcode]

theorem decode_eq_ok_iff_eq_encode {w : BitVec 16} {i : Instr} : decode w = .ok i ↔ w = encode i := by
  obtain ⟨hopc, hwid, hrsv, -⟩ := wordFields i
  rw [decode_eq_ok_iff]
  constructor
  · rintro ⟨hrsv', hopc', hwid'⟩
    exact word_ext (hopc'.trans hopc.symm) (hwid'.trans hwid.symm) (hrsv'.trans hrsv.symm)
  · rintro rfl
    exact ⟨hrsv, hopc, hwid⟩

@[simp] theorem decode_encode (i : Instr) : decode (encode i) = .ok i := decode_eq_ok_iff_eq_encode.mpr rfl

/-- Settles O2: a word is its three fields, and the opcode map has each instruction in one cell. -/
theorem decodeIsTheInverseOfEncode : Obligations.DecodeIsTheInverseOfEncode :=
  fun _ _ => decode_eq_ok_iff_eq_encode

theorem mem_allInstrs (i : Instr) : i ∈ allInstrs := by
  cases i with
  | sext w | zext w | trunc w => cases w <;> decide
  | _ => decide

/-- The legal words are those of the 32 instructions (R87). -/
theorem exists_decode_eq_ok_iff (w : BitVec 16) : (∃ i, decode w = .ok i) ↔ w ∈ allInstrs.map encode := by
  simp only [decode_eq_ok_iff_eq_encode, List.mem_map, mem_allInstrs, true_and, eq_comm (a := w)]

/-- Settles O3: the listed words are the encodings of the 32 instructions. -/
theorem exactlyThirtyTwoWordsAreLegal : Obligations.ExactlyThirtyTwoWordsAreLegal := by
  refine ⟨exists_decode_eq_ok_iff, fun w => ?_⟩
  cases decode w with
  | ok i => exact .inl ⟨i, rfl⟩
  | error e => exact .inr ⟨e, rfl⟩

/-- The decoder refuses exactly the words of R86. -/
theorem exists_decode_eq_error_iff (w : BitVec 16) : (∃ e, decode w = .error e) ↔ illegalWord w = true := by
  have hcell := decodeOpc_error_iff (fieldOpc w) (fieldWid w)
  simp only [illegalWord, Bool.or_eq_true, Bool.and_eq_true, decide_eq_true_eq]
  unfold decode
  by_cases hrsv : fieldRsv w = 0#9
  · simp only [hrsv, if_true, ne_eq, not_true_eq_false, or_false]
    exact hcell
  · simp only [if_neg hrsv]
    exact ⟨fun _ => .inl (.inr hrsv), fun _ => ⟨_, rfl⟩⟩

/-- R86 on the word's bits as a number. -/
theorem illegalWord_iff_bits (w : BitVec 16) :
    illegalWord w = true ↔
      (w.toNat % 32 = 0x00 ∨ w.toNat % 32 = 0x0F ∨ w.toNat % 32 = 0x13 ∨ w.toNat % 32 = 0x17 ∨
          (0x1B ≤ w.toNat % 32 ∧ w.toNat % 32 ≤ 0x1F)) ∨
        w.toNat / 128 ≠ 0 ∨
        (w.toNat / 32 % 4 ≠ 0 ∧ w.toNat % 32 ≠ 0x18 ∧ w.toNat % 32 ≠ 0x19 ∧ w.toNat % 32 ≠ 0x1A) := by
  simp only [illegalWord, Bool.or_eq_true, Bool.and_eq_true, decide_eq_true_eq, or_assoc, ne_eq, ← BitVec.toNat_inj,
    fieldOpc_toNat, fieldWid_toNat, fieldRsv_toNat, BitVec.toNat_ofNat, Nat.zero_mod]

namespace Machine

open Claims

theorem runCommand_of_error {s : State} {e : DecodeError} (h : decode s.inp.cmd = .error e) :
    runCommand s = .next (afterFault s 0x0B#8) := by
  simp only [runCommand, h]
  exact congrArg _ (raiseFault_eq_afterFault .illegalOp s)

theorem runCommand_of_ok {s : State} {i : Instr} (h : decode s.inp.cmd = .ok i) : runCommand s = exec i s := by
  simp only [runCommand, h]

/-- Settles O4: the decoder refuses the words of R86 and no others. -/
theorem illegalWordsRaiseIllegalOp : Obligations.IllegalWordsRaiseIllegalOp := by
  intro s
  have hrefused := (exists_decode_eq_error_iff s.inp.cmd).trans (illegalWord_iff_bits s.inp.cmd)
  refine ⟨fun hillegal => ?_, fun hlegal => ?_⟩
  · obtain ⟨e, he⟩ := hrefused.mpr hillegal
    exact runCommand_of_error he
  · cases hd : decode s.inp.cmd with
    | error e => exact absurd (hrefused.mp ⟨e, hd⟩) hlegal
    | ok i => exact ⟨i, rfl, runCommand_of_ok hd⟩

end Machine

end Sys2Proof
end

section
/-! A host line that issues a legal word (30_encoding.md R88, 70_reset_and_hazards.md R345), and the mnemonics
(30_encoding.md R89). -/

namespace Sys2Proof.Machine

theorem presentedInputs_cmd {c : CmdLine} {vars : List (Nat × HostVal)} {inp : Inputs}
    (h : presentedInputs c vars = some inp) : inp.cmd = c.word := by
  unfold presentedInputs at h
  split at h <;> cases h
  rfl

theorem step_of_issue {s t : State} {c : CmdLine} {inp : Inputs} (hline : s.prog[s.line]? = some (.issue c))
    (hinp : presentedInputs c s.vars = some inp) (ht : runCommand (s.present inp) = .next t) :
    step s = .next (collectResults c.dsts t).advance := by
  simp only [step, fetchLine, hline, runLine, runIssue, hinp, ht]

/-- Settles O8: the command completes, and neither it nor the copies move the line counter. -/
theorem stepRunsTheDecodedCommand : Obligations.StepRunsTheDecodedCommand := by
  intro s c inp i hline hinp hdecode
  have hrun : runCommand (s.present inp) = exec i (s.present inp) :=
    runCommand_of_ok (by rw [present_inp, presentedInputs_cmd hinp, hdecode])
  obtain ⟨t, ht⟩ : ∃ t, exec i (s.present inp) = .next t := by
    rcases exec_cases i (s.present inp) with ⟨o, h⟩ | ⟨e, h⟩ <;> exact ⟨_, h⟩
  obtain ⟨-, -, hlineKept, -, -⟩ := execChangesOnlyTheRegisters i (s.present inp) t ht
  obtain ⟨-, -, -, -, -, -, -, hcollect, -, -⟩ := hostOnly_collectResults c.dsts t
  refine ⟨t, ht, ?_⟩
  rw [step_of_issue hline hinp (hrun.trans ht), State.advance, hcollect, hlineKept, present_line]

/-- No two instructions have one mnemonic (R89). -/
theorem find_asmName (i : Instr) : allInstrs.find? (fun j => asmName j == asmName i) = some i := by
  cases i with
  | sext w | zext w | trunc w => cases w <;> rfl
  | _ => rfl

/-- Settles O59: the case is dropped before the mnemonic is looked up, and no two instructions share one. -/
theorem mnemonicsNameTheirInstructions : Obligations.MnemonicsNameTheirInstructions := by
  refine ⟨by decide, fun i cs hname => ⟨?_, fun o dsts => decode_encode i⟩⟩
  rw [instrOfName, hname, find_asmName]

/-- Settles O1. -/
theorem decodesWordsOfTheOpcodeMap : Obligations.DecodesWordsOfTheOpcodeMap := by
  unfold Obligations.DecodesWordsOfTheOpcodeMap
  decide

end Sys2Proof.Machine
end

section
/-! What an operation writes (30_encoding.md R85) and what it reads (R83). -/

namespace Sys2Proof.Machine

open Claims

section writes
variable {s t : State}

theorem valuePattern_of_writeOutputs {o : Outputs} (h : writeOutputs o s = .next t) :
    valuePattern t = (o.y.isSome, o.z.isSome, o.f.isSome, o.ord.isSome) := by
  cases h; rfl

theorem valuePattern_of_shiftCommand {shift : Value → Nat → Value} (h : shiftCommand shift s = .next t)
    (hfault : statusFault t.status = false) : valuePattern t = (true, false, false, false) := by
  rcases shiftCommand_cases shift s with ⟨-, h'⟩ | ⟨-, h'⟩ <;> rw [h] at h' <;> cases h'
  · simp at hfault
  · rfl

theorem valuePattern_of_divideCommand {result : Value → Value → Outputs} (h : divideCommand result s = .next t)
    (hfault : statusFault t.status = false) :
    valuePattern t = valuePattern (s.complete (result (opA s) (opB s))) := by
  rcases divideCommand_cases result s with ⟨-, h'⟩ | ⟨-, h'⟩ <;> rw [h] at h' <;> cases h'
  · simp at hfault
  · rfl

end writes

/-- Settles O13: a success is the completion of the instruction's shared operation with its outputs. -/
theorem successWritesTheRegistersOfTheTable : Obligations.SuccessWritesTheRegistersOfTheTable := by
  intro i s t h hfault
  cases i with
  | shl | shrl | shra => exact valuePattern_of_shiftCommand h hfault
  | divu | divs | remu | rems =>
    simp only [exec, execDivu, execDivs, execRemu, execRems] at h
    exact valuePattern_of_divideCommand h hfault
  | _ => exact valuePattern_of_writeOutputs h

theorem lo_congr {v w : Value} (h : v.toNat % 2 ^ 64 = w.toNat % 2 ^ 64) : lo v = lo w :=
  BitVec.eq_of_toNat_eq (by rw [lo_toNat, lo_toNat, h])

theorem nativeBits_congr {w : NativeWidth} {u v : Value} (h : u.toNat % 2 ^ widthBits w = v.toNat % 2 ^ widthBits w) :
    nativeBits w u = nativeBits w v :=
  BitVec.eq_of_toNat_eq (by rw [nativeBits_toNat, nativeBits_toNat, h])

/-- An instruction's effect is fixed by what it reads of its operands (R83). -/
theorem exec_sameEffect_of_readsSame (i : Instr) {s s' : State} (h : readsSame i s.inp s'.inp) :
    SameEffect s s' (exec i s) (exec i s') := by
  cases i with
  | add | sub | mul | muls =>
    obtain ⟨hA, hB⟩ : opA s = opA s' ∧ opB s = opB s' := h
    simp only [exec, execAdd, execSub, execMul, execMuls, hA, hB]
    exact sameEffect_writeOutputs (legal_yOnly _)
  | divu | divs =>
    obtain ⟨hA, hB⟩ : opA s = opA s' ∧ opB s = opB s' := h
    simp only [exec, execDivu, execDivs]
    exact sameEffect_divideCommand (fun _ _ => legal_yAndZ _ _) hA hB
  | remu | rems =>
    obtain ⟨hA, hB⟩ : opA s = opA s' ∧ opB s = opB s' := h
    simp only [exec, execRemu, execRems]
    exact sameEffect_divideCommand (fun _ _ => legal_yOnly _) hA hB
  | cmpu =>
    obtain ⟨hA, hB⟩ : opA s = opA s' ∧ opB s = opB s' := h
    simp only [exec, execCmpu, hA, hB]
    exact sameEffect_writeOutputs (legal_ordOnly (orderUnsigned_ne_three _ _))
  | cmps =>
    obtain ⟨hA, hB⟩ : opA s = opA s' ∧ opB s = opB s' := h
    simp only [exec, execCmps, hA, hB]
    exact sameEffect_writeOutputs (legal_ordOnly (orderSigned_ne_three _ _))
  | adc64 | sbb64 =>
    obtain ⟨hA, hB, hCin⟩ := h
    have hCin : opCin s = opCin s' := hCin
    have hA : lo (opA s) = lo (opA s') := lo_congr hA
    have hB : lo (opB s) = lo (opB s') := lo_congr hB
    simp only [exec, execAdc64, execSbb64, hA, hB, hCin]
    exact sameEffect_writeOutputs (legal_yAndF _ _)
  | wmul64 =>
    obtain ⟨hA, hB⟩ := h
    have hA : lo (opA s) = lo (opA s') := lo_congr hA
    have hB : lo (opB s) = lo (opB s') := lo_congr hB
    simp only [exec, execWmul64, hA, hB]
    exact sameEffect_writeOutputs (legal_yOnly _)
  | inc | dec | neg =>
    have hA : opA s = opA s' := h
    simp only [exec, execInc, execDec, execNeg, hA]
    exact sameEffect_writeOutputs (legal_yOnly _)
  | test =>
    have hA : opA s = opA s' := h
    simp only [exec, execTest, hA]
    exact sameEffect_writeOutputs (legal_fOnly _)
  | shl | shrl | shra =>
    obtain ⟨hA, hCnt⟩ := h
    exact sameEffect_shiftCommand _ hA (congrArg BitVec.toNat hCnt)
  | sext | zext | trunc =>
    have hA := nativeBits_congr h
    simp only [exec, execSext, execZext, execTrunc, signExtendNative, zeroExtendNative, truncateToNative, opA, hA]
    exact sameEffect_writeOutputs (legal_yOnly _)

/-- Settles O18: the effect is the same, and no effect touches the inputs. -/
theorem unreadInputsHaveNoEffect : Obligations.UnreadInputsHaveNoEffect := by
  intro i s t x hreads ht
  have heffect : SameEffect s { s with inp := x } (exec i s) (exec i { s with inp := x }) :=
    exec_sameEffect_of_readsSame i hreads
  rw [ht] at heffect
  rcases heffect with ⟨o, -, h, h'⟩ | ⟨c, h, h'⟩ <;> cases h <;> exact h'

end Sys2Proof.Machine
end

section
/-! The comparisons (46_compare_convert.md R260, R261) as the three-way order of the compared values, and the host tests
that the comparison pseudo-instructions make on ORD (30_encoding.md R90). -/

namespace Sys2Proof.Machine

open Claims

/-- The ORD code of a pair of numbers (R36). -/
def orderOf (m n : Int) : BitVec 2 := if m < n then ordLT else if n < m then ordGT else ordEQ

theorem orderOf_eq_ordLT_iff {m n : Int} : orderOf m n = ordLT ↔ m < n := by
  unfold orderOf
  split_ifs with hlt hgt
  · simp [hlt]
  · simp [hlt, ordGT, ordLT]
  · simp [hlt, ordEQ, ordLT]

theorem orderOf_eq_ordGT_iff {m n : Int} : orderOf m n = ordGT ↔ n < m := by
  unfold orderOf
  split_ifs with hlt hgt
  · simp [hlt.le, ordGT, ordLT]
  · simp [hgt]
  · simp [hgt, ordEQ, ordGT]

theorem orderOf_eq_ordEQ_iff {m n : Int} : orderOf m n = ordEQ ↔ m = n := by
  unfold orderOf
  split_ifs with hlt hgt
  · simp [hlt.ne, ordEQ, ordLT]
  · simp [hgt.ne', ordEQ, ordGT]
  · simp [le_antisymm (not_lt.mp hgt) (not_lt.mp hlt)]

/-- The order of two-word numbers is that of the high words, and of the low words where those are equal. -/
theorem orderOf_words (h h' : Int) (l l' : Word64) :
    orderOf (h * 2 ^ 64 + l.toNat) (h' * 2 ^ 64 + l'.toNat) =
      if h < h' then ordLT else if h > h' then ordGT else orderOf l.toNat l'.toNat := by
  have hl := l.isLt
  have hl' := l'.isLt
  split_ifs with hlt hgt
  · exact orderOf_eq_ordLT_iff.mpr (by omega)
  · exact orderOf_eq_ordGT_iff.mpr (by omega)
  · obtain rfl : h = h' := by omega
    simp only [orderOf, Int.add_lt_add_iff_left]

/-- The signed value of a word pair: the high word signed, the low word unsigned (R7). -/
theorem toInt_eq_words (v : Value) : v.toInt = (hi v).toInt * 2 ^ 64 + (lo v).toNat := by
  have hv := v.isLt
  rw [BitVec.toInt_eq_toNat_cond, BitVec.toInt_eq_toNat_cond, hi_toNat, lo_toNat]
  split_ifs <;> omega

theorem orderUnsigned_eq_orderOf (a b : Value) : orderUnsigned a b = orderOf a.toNat b.toNat := by
  rw [value_eq_words a, value_eq_words b]
  simp only [Nat.cast_add, Nat.cast_mul, Nat.cast_pow, Nat.cast_ofNat, orderOf_words]
  simp only [orderUnsigned, orderOf, Nat.cast_lt, gt_iff_lt]

theorem orderSigned_eq_orderOf (a b : Value) : orderSigned a b = orderOf a.toInt b.toInt := by
  rw [toInt_eq_words a, toInt_eq_words b, orderOf_words]
  simp only [orderSigned, orderOf, Nat.cast_lt, gt_iff_lt]

section issue
variable (a b : Value) (cnt : BitVec 32) (cin : Bool) (s : State)

/-- What CMPU leaves in ORD (R260). -/
theorem resultOrd_issueOn_cmpu : resultOrd (issueOn .cmpu a b cnt cin s) = some (orderOf a.toNat b.toNat) := by
  rw [issueOn_eq _ _ _ _ _ _ (decode_encode _), ← orderUnsigned_eq_orderOf]
  rfl

/-- What CMPS leaves in ORD (R261). -/
theorem resultOrd_issueOn_cmps : resultOrd (issueOn .cmps a b cnt cin s) = some (orderOf a.toInt b.toInt) := by
  rw [issueOn_eq _ _ _ _ _ _ (decode_encode _), ← orderSigned_eq_orderOf]
  rfl

end issue

/-- A host test of an ORD value just copied to the tested variable (R345). -/
theorem testHolds_order (n : Nat) (r : Rel) (l o : BitVec 2) (vars : List (Nat × HostVal)) :
    testHolds { var := n, rel := r, lit := .order l } (varsSet vars n (some (.order o))) = equalityRel r (o == l) := by
  simp only [testHolds, varsSet, varsGet_insert_same, contentRel]

/-- Settles O58: the command leaves the order of the compared values, and each test holds for the orders of its
relation: of the six unsigned relations after CMPU, of the four signed ones after CMPS. -/
theorem pseudoComparisonsMeanTheirRelations : Obligations.PseudoComparisonsMeanTheirRelations := by
  intro p s a b cnt cin vars n
  cases p with
  | eq | ne | ltu | leu | gtu | geu =>
    refine ⟨_, resultOrd_issueOn_cmpu a b cnt cin s, ?_⟩
    simp only [pseudoTest, testHolds_order, equalityRel, beq_eq_decide, orderOf_eq_ordLT_iff, orderOf_eq_ordGT_iff,
      orderOf_eq_ordEQ_iff, Nat.cast_lt, Nat.cast_inj, BitVec.toNat_inj, ← decide_not, not_lt, ne_eq]
  | lts | les | gts | ges =>
    refine ⟨_, resultOrd_issueOn_cmps a b cnt cin s, ?_⟩
    simp only [pseudoTest, testHolds_order, equalityRel, beq_eq_decide, orderOf_eq_ordLT_iff, orderOf_eq_ordGT_iff,
      ← decide_not, not_lt]

end Sys2Proof.Machine
end

section
/-! The shift family (41_shift.md): the two words that R101 to R103 compute are the words of the shifted 128-bit value,
the shifted value has the closed form of its rule, and a shift there and back clears the bits it pushed out (R104). -/

namespace Sys2Proof.Machine

open Claims

theorem getLsbD_lo (v : Value) (i : Nat) : (lo v).getLsbD i = (decide (i < 64) && v.getLsbD i) := by
  rw [lo, BitVec.getLsbD_extractLsb', Nat.zero_add]

theorem getLsbD_hi (v : Value) (i : Nat) : (hi v).getLsbD i = (decide (i < 64) && v.getLsbD (64 + i)) :=
  BitVec.getLsbD_extractLsb' 64 64 v i

theorem msb_hi (v : Value) : (hi v).msb = v.msb := by
  rw [BitVec.msb_eq_getLsbD_last, BitVec.msb_eq_getLsbD_last, getLsbD_hi]; rfl

section words
variable (a : Value) {k : Nat}

theorem lo_shiftLeft (k : Nat) : lo (a <<< k) = lo a <<< k := by
  refine BitVec.eq_of_getLsbD_eq fun i hi64 => ?_
  simp only [getLsbD_lo, BitVec.getLsbD_shiftLeft]
  grind

/-- Below 64, bits of the low word cross into the high word (R101). -/
theorem hi_shiftLeft_of_le (hk : k ≤ 64) : hi (a <<< k) = (hi a <<< k) ||| (lo a >>> (64 - k)) := by
  refine BitVec.eq_of_getLsbD_eq fun i hi64 => ?_
  simp only [getLsbD_lo, getLsbD_hi, BitVec.getLsbD_or, BitVec.getLsbD_shiftLeft, BitVec.getLsbD_ushiftRight]
  rcases Nat.lt_or_ge i k with hcrossed | hstayed
  · have hpos : 64 - k + i = 64 + i - k := by omega
    grind
  · have hpos : 64 + (i - k) = 64 + i - k := by omega
    grind

theorem hi_shiftLeft_of_ge (hk : 64 ≤ k) : hi (a <<< k) = lo a <<< (k - 64) := by
  refine BitVec.eq_of_getLsbD_eq fun i hi64 => ?_
  simp only [getLsbD_lo, getLsbD_hi, BitVec.getLsbD_shiftLeft]
  grind

theorem hi_ushiftRight (k : Nat) : hi (a >>> k) = hi a >>> k := by
  refine BitVec.eq_of_getLsbD_eq fun i hi64 => ?_
  simp only [getLsbD_hi, BitVec.getLsbD_ushiftRight]
  grind

/-- Below 64, bits of the high word cross into the low word (R102). -/
theorem lo_ushiftRight_of_le (hk : k ≤ 64) : lo (a >>> k) = (lo a >>> k) ||| (hi a <<< (64 - k)) := by
  refine BitVec.eq_of_getLsbD_eq fun i hi64 => ?_
  simp only [getLsbD_lo, getLsbD_hi, BitVec.getLsbD_or, BitVec.getLsbD_shiftLeft, BitVec.getLsbD_ushiftRight]
  rcases Nat.lt_or_ge (k + i) 64 with hstayed | hcrossed
  · grind
  · have hpos : 64 + (i - (64 - k)) = k + i := by omega
    grind

theorem lo_ushiftRight_of_ge (hk : 64 ≤ k) : lo (a >>> k) = hi a >>> (k - 64) := by
  refine BitVec.eq_of_getLsbD_eq fun i hi64 => ?_
  simp only [getLsbD_lo, getLsbD_hi, BitVec.getLsbD_ushiftRight]
  grind

theorem hi_sshiftRight (k : Nat) : hi (a.sshiftRight k) = (hi a).sshiftRight k := by
  refine BitVec.eq_of_getLsbD_eq fun i hi64 => ?_
  simp only [getLsbD_hi, BitVec.getLsbD_sshiftRight, msb_hi]
  grind

/-- Below 64, the sign does not reach the low word (R103). -/
theorem lo_sshiftRight_of_le (hk : k ≤ 64) : lo (a.sshiftRight k) = lo (a >>> k) := by
  refine BitVec.eq_of_getLsbD_eq fun i hi64 => ?_
  simp only [getLsbD_lo, BitVec.getLsbD_sshiftRight, BitVec.getLsbD_ushiftRight]
  grind

theorem lo_sshiftRight_of_ge (hk : 64 ≤ k) : lo (a.sshiftRight k) = (hi a).sshiftRight (k - 64) := by
  refine BitVec.eq_of_getLsbD_eq fun i hi64 => ?_
  simp only [getLsbD_lo, getLsbD_hi, BitVec.getLsbD_sshiftRight, msb_hi]
  grind

/-- A word shifted out whole leaves its sign in every bit (R103). -/
theorem sshiftRight_hi_eq_signFill (hk : 64 ≤ k) : (hi a).sshiftRight k = signFill a := by
  have hones : 0xFFFFFFFFFFFFFFFF#64 = BitVec.allOnes 64 := by decide
  refine BitVec.eq_of_getLsbD_eq fun i hi64 => ?_
  rw [BitVec.getLsbD_sshiftRight, msb_hi, if_neg (by omega), signFill, hones]
  split_ifs with hsign
  · rw [hsign, BitVec.getLsbD_allOnes]
    grind
  · simp [hsign]

theorem shiftLeftWords_eq (k : Nat) : shiftLeftWords a k = a <<< k := by
  unfold shiftLeftWords
  split_ifs with h0 h64
  · rw [h0, BitVec.shiftLeft_zero]
  · rw [← lo_shiftLeft, ← hi_shiftLeft_of_le a h64.le, pair_lo_hi]
  · have hlo : lo (a <<< k) = 0 := by rw [lo_shiftLeft, BitVec.shiftLeft_eq_zero (not_lt.mp h64)]; rfl
    rw [← hlo, ← hi_shiftLeft_of_ge a (not_lt.mp h64), pair_lo_hi]

theorem shiftRightWords_eq (k : Nat) : shiftRightWords a k = a >>> k := by
  unfold shiftRightWords
  split_ifs with h0 h64
  · rw [h0, BitVec.ushiftRight_zero]
  · rw [← lo_ushiftRight_of_le a h64.le, ← hi_ushiftRight, pair_lo_hi]
  · have hhi : hi (a >>> k) = 0 := by rw [hi_ushiftRight, BitVec.ushiftRight_eq_zero (not_lt.mp h64)]; rfl
    rw [← hhi, ← lo_ushiftRight_of_ge a (not_lt.mp h64), pair_lo_hi]

theorem shiftRightSignedWords_eq (k : Nat) : shiftRightSignedWords a k = a.sshiftRight k := by
  unfold shiftRightSignedWords
  split_ifs with h0 h64
  · rw [h0, BitVec.sshiftRight_zero]
  · rw [← lo_ushiftRight_of_le a h64.le, ← lo_sshiftRight_of_le a h64.le, ← hi_sshiftRight, pair_lo_hi]
  · rw [← sshiftRight_hi_eq_signFill a (not_lt.mp h64), ← lo_sshiftRight_of_ge a (not_lt.mp h64), ← hi_sshiftRight,
      pair_lo_hi]

end words

section closedForms
variable (a : Value) (k : Nat)

theorem shiftLeft_eq_ofNat_mul : a <<< k = BitVec.ofNat 128 (a.toNat * 2 ^ k) := by
  apply BitVec.eq_of_toNat_eq
  rw [BitVec.toNat_shiftLeft, Nat.shiftLeft_eq, BitVec.toNat_ofNat]

theorem ushiftRight_eq_ofNat_div : a >>> k = BitVec.ofNat 128 (a.toNat / 2 ^ k) := by
  apply BitVec.eq_of_toNat_eq
  rw [BitVec.toNat_ushiftRight, Nat.shiftRight_eq_div_pow, BitVec.toNat_ofNat,
    Nat.mod_eq_of_lt ((Nat.div_le_self _ _).trans_lt a.isLt)]

theorem sshiftRight_eq_ofInt_fdiv : a.sshiftRight k = BitVec.ofInt 128 (a.toInt.fdiv (2 ^ k)) := by
  rw [BitVec.sshiftRight_eq, Int.shiftRight_eq_div_pow, Int.fdiv_eq_ediv_of_nonneg _ (by positivity)]
  norm_cast

end closedForms

/-- A shift command whose shift gives `y`, in the terms the claims use: by its count, `y` or SHIFT_RANGE (R100). -/
theorem shiftCommand_eq {shift : Value → Nat → Value} {s : State} {y : Value} (hy : shift (opA s) (opCount s) = y) :
    (s.inp.cnt.toNat < 128 → shiftCommand shift s = .next (afterSuccess s (some y) none none none)) ∧
      (128 ≤ s.inp.cnt.toNat → shiftCommand shift s = .next (afterFault s 0x0F#8)) := by
  subst hy
  rcases shiftCommand_cases shift s with ⟨hge, hfault⟩ | ⟨hlt, hdone⟩
  · exact ⟨fun hlt => absurd hlt (Nat.not_lt.mpr hge),
      fun _ => hfault.trans (congrArg _ (raiseFault_eq_afterFault .shiftRange s))⟩
  · exact ⟨fun _ => hdone.trans (congrArg _ (complete_eq_afterSuccess _ s)),
      fun hge => absurd hlt (Nat.not_lt.mpr hge)⟩

/-- Settles O33: the two words are those of the shifted value, whose closed form is R101's. -/
theorem shlMultipliesByAPowerOfTwo : Obligations.ShlMultipliesByAPowerOfTwo :=
  ⟨decode_encode .shl, fun _ => shiftCommand_eq ((shiftLeftWords_eq _ _).trans (shiftLeft_eq_ofNat_mul _ _))⟩

/-- Settles O34: the two words are those of the unsigned right shift, whose closed form is R102's. -/
theorem shrlDividesTheUnsignedValue : Obligations.ShrlDividesTheUnsignedValue :=
  ⟨decode_encode .shrl, fun _ => shiftCommand_eq ((shiftRightWords_eq _ _).trans (ushiftRight_eq_ofNat_div _ _))⟩

/-- Settles O35: the two words are those of the signed right shift, which rounds as R103's floor does. -/
theorem shraDividesTheSignedValue : Obligations.ShraDividesTheSignedValue :=
  ⟨decode_encode .shra, fun _ =>
    shiftCommand_eq ((shiftRightSignedWords_eq _ _).trans (sshiftRight_eq_ofInt_fdiv _ _))⟩

section laws
variable (a : Value)

/-- The first law of R104, on values: the top `k` bits are lost. -/
theorem shiftLeft_ushiftRight_eq_and (k : Nat) : (a <<< k) >>> k = a &&& BitVec.ofNat 128 (2 ^ (128 - k) - 1) := by
  refine BitVec.eq_of_getLsbD_eq fun i hi128 => ?_
  simp only [BitVec.getLsbD_ushiftRight, BitVec.getLsbD_shiftLeft, BitVec.getLsbD_and, BitVec.getLsbD_ofNat,
    Nat.testBit_two_pow_sub_one]
  grind

/-- The second law of R104, on values: the low `k` bits are lost. -/
theorem ushiftRight_shiftLeft_eq_and (k : Nat) : (a >>> k) <<< k = a &&& ~~~BitVec.ofNat 128 (2 ^ k - 1) := by
  refine BitVec.eq_of_getLsbD_eq fun i hi128 => ?_
  simp only [BitVec.getLsbD_ushiftRight, BitVec.getLsbD_shiftLeft, BitVec.getLsbD_and, BitVec.getLsbD_not,
    BitVec.getLsbD_ofNat, Nat.testBit_two_pow_sub_one]
  grind

variable (b : Value) {cnt : BitVec 32} (cin : Bool) (s : State) (hcnt : cnt.toNat < 128)
include hcnt

theorem resultY_issueOn_shl : resultY (issueOn .shl a b cnt cin s) = some (a <<< cnt.toNat) := by
  rw [issueOn_eq _ _ _ _ _ _ (decode_encode _)]
  exact congrArg resultY ((shiftCommand_eq (shiftLeftWords_eq _ _)).1 hcnt)

theorem resultY_issueOn_shrl : resultY (issueOn .shrl a b cnt cin s) = some (a >>> cnt.toNat) := by
  rw [issueOn_eq _ _ _ _ _ _ (decode_encode _)]
  exact congrArg resultY ((shiftCommand_eq (shiftRightWords_eq _ _)).1 hcnt)

end laws

/-- Settles O40: the commands shift the value, and each law holds of the values. -/
theorem shiftThereAndBack : Obligations.ShiftThereAndBack := by
  intro s s' a b cnt cin hcnt
  refine ⟨⟨_, resultY_issueOn_shl a b cin s hcnt, ?_⟩, ⟨_, resultY_issueOn_shrl a b cin s hcnt, ?_⟩⟩
  · rw [resultY_issueOn_shrl _ b cin s' hcnt, shiftLeft_ushiftRight_eq_and]
  · rw [resultY_issueOn_shl _ b cin s' hcnt, ushiftRight_shiftLeft_eq_and]

end Sys2Proof.Machine
end

section
/-! The add and subtract family (42_add_sub.md): a 64-bit primitive keeps the exact sum or difference in its word and its
carry or borrow, so a chain of two is the addition or subtraction of 128-bit values. -/

namespace Sys2Proof.Machine

open Claims

section words
variable (cin : Bool) (x y : Word64)

/-- The carry is the 65th bit of the exact sum (R130). -/
theorem addWithCarry_exact : (addWithCarry cin x y).2.toNat * 2 ^ 64 + (addWithCarry cin x y).1.toNat =
    x.toNat + y.toNat + cin.toNat := by
  have hx := x.isLt
  have hy := y.isLt
  have hcin := cin.toNat_lt
  simp only [addWithCarry, BitVec.toNat_ofNat]
  by_cases hcarry : 2 ^ 64 ≤ x.toNat + y.toNat + cin.toNat
  · rw [decide_eq_true hcarry, Bool.toNat_true]; omega
  · rw [decide_eq_false hcarry, Bool.toNat_false]; omega

/-- The borrow counts 2^64 against the word (R140). -/
theorem subWithBorrow_exact : ((subWithBorrow cin x y).1.toNat : Int) - (subWithBorrow cin x y).2.toNat * 2 ^ 64 =
    x.toNat - y.toNat - cin.toNat := by
  have hx := x.isLt
  have hy := y.isLt
  have hcin := cin.toNat_lt
  simp only [subWithBorrow, BitVec.toNat_ofInt]
  by_cases hborrow : (x.toNat : Int) - y.toNat - cin.toNat < 0
  · rw [decide_eq_true hborrow, Bool.toNat_true]; omega
  · rw [decide_eq_false hborrow, Bool.toNat_false]; omega

/-- A word with 0 above it, as ADC64 and SBB64 leave it in Y (D27). -/
theorem pair_zero_eq_ofNat : pair x 0#64 = BitVec.ofNat 128 x.toNat := by
  have hx := x.isLt
  apply BitVec.eq_of_toNat_eq
  rw [pair_toNat, BitVec.toNat_ofNat, BitVec.toNat_ofNat]
  omega

end words

section values
variable (a b : Value)

theorem addValues_eq_pair : addValues a b = pair (addWithCarry false (lo a) (lo b)).1
    (addWithCarry (addWithCarry false (lo a) (lo b)).2 (hi a) (hi b)).1 := rfl

theorem subValues_eq_pair : subValues a b = pair (subWithBorrow false (lo a) (lo b)).1
    (subWithBorrow (subWithBorrow false (lo a) (lo b)).2 (hi a) (hi b)).1 := rfl

/-- The carry chain keeps the exact sum in its words and its last carry (R131). -/
theorem addValues_exact : (addWithCarry (addWithCarry false (lo a) (lo b)).2 (hi a) (hi b)).2.toNat * 2 ^ 128 +
    (addValues a b).toNat = a.toNat + b.toNat := by
  have hlow := addWithCarry_exact false (lo a) (lo b)
  have hhigh := addWithCarry_exact (addWithCarry false (lo a) (lo b)).2 (hi a) (hi b)
  rw [Bool.toNat_false] at hlow
  rw [addValues_eq_pair, pair_toNat, value_eq_words a, value_eq_words b]
  linarith

/-- The last carry, which the chain discards, is all that is lost. -/
theorem addValues_eq_add : addValues a b = a + b := by
  apply BitVec.eq_of_toNat_eq
  rw [BitVec.toNat_add, ← addValues_exact, Nat.mul_add_mod_self_right, Nat.mod_eq_of_lt (addValues a b).isLt]

/-- The last carry of the chain is that of the whole sum (R144). -/
theorem addWithCarry_hi_carry : (addWithCarry (addWithCarry false (lo a) (lo b)).2 (hi a) (hi b)).2 =
    decide (2 ^ 128 ≤ a.toNat + b.toNat) := by
  have hlow := addWithCarry_exact false (lo a) (lo b)
  have hword := (addWithCarry false (lo a) (lo b)).1.isLt
  rw [Bool.toNat_false] at hlow
  rw [value_eq_words a, value_eq_words b]
  exact decide_eq_decide.mpr (by omega)

/-- The borrow chain loses nothing but the last borrow, which it discards (R141). -/
theorem subValues_eq_sub : subValues a b = a - b := by
  have hlow := subWithBorrow_exact false (lo a) (lo b)
  have hhigh := subWithBorrow_exact (subWithBorrow false (lo a) (lo b)).2 (hi a) (hi b)
  have hb := b.isLt
  apply BitVec.eq_of_toNat_eq
  rw [subValues_eq_pair, pair_toNat, BitVec.toNat_sub, value_eq_words a]
  rw [value_eq_words b] at hb ⊢
  rw [Bool.toNat_false] at hlow
  omega

theorem add_eq_ofNat : a + b = BitVec.ofNat 128 (a.toNat + b.toNat) := by
  rw [BitVec.ofNat_add, BitVec.ofNat_toNat, BitVec.ofNat_toNat, BitVec.setWidth_eq, BitVec.setWidth_eq]

theorem sub_eq_ofInt : a - b = BitVec.ofInt 128 ((a.toNat : Int) - b.toNat) := by
  rw [Int.sub_eq_add_neg, BitVec.ofInt_add, BitVec.ofInt_neg, BitVec.ofInt_natCast, BitVec.ofInt_natCast,
    BitVec.ofNat_toNat, BitVec.ofNat_toNat, BitVec.setWidth_eq, BitVec.setWidth_eq, BitVec.sub_eq_add_neg]

end values

/-- The one of R132 and R142. -/
theorem pair_one_zero : pair 1 0 = 1#128 := by decide

section exec
variable (s : State)

/-- A command without an operand condition, in the terms the claims use. -/
theorem writeOutputs_eq_afterSuccess (o : Outputs) :
    writeOutputs o s = .next (afterSuccess s o.y o.z o.f o.ord) :=
  congrArg _ (complete_eq_afterSuccess o s)

theorem exec_add : exec .add s = .next (afterSuccess s (some (s.inp.a + s.inp.b)) none none none) := by
  rw [← addValues_eq_add]
  exact writeOutputs_eq_afterSuccess s _

theorem exec_sub : exec .sub s = .next (afterSuccess s (some (s.inp.a - s.inp.b)) none none none) := by
  rw [← subValues_eq_sub]
  exact writeOutputs_eq_afterSuccess s _

theorem exec_inc : exec .inc s = .next (afterSuccess s (some (s.inp.a + 1#128)) none none none) := by
  rw [← pair_one_zero, ← addValues_eq_add]
  exact writeOutputs_eq_afterSuccess s _

theorem exec_dec : exec .dec s = .next (afterSuccess s (some (s.inp.a - 1#128)) none none none) := by
  rw [← pair_one_zero, ← subValues_eq_sub]
  exact writeOutputs_eq_afterSuccess s _

theorem exec_neg : exec .neg s = .next (afterSuccess s (some (negValue s.inp.a)) none none none) := by
  have hneg : negValue s.inp.a = subValues (pair 0 0) s.inp.a :=
    (sub_eq_ofInt 0 _).symm.trans (subValues_eq_sub 0 _).symm
  rw [hneg]
  exact writeOutputs_eq_afterSuccess s _

theorem exec_adc64 :
    exec .adc64 s = .next (afterSuccess s (some (pair (addWithCarry s.inp.cin (lo s.inp.a) (lo s.inp.b)).1 0#64)) none
      (some (addWithCarry s.inp.cin (lo s.inp.a) (lo s.inp.b)).2) none) :=
  writeOutputs_eq_afterSuccess s _

theorem exec_sbb64 :
    exec .sbb64 s = .next (afterSuccess s (some (pair (subWithBorrow s.inp.cin (lo s.inp.a) (lo s.inp.b)).1 0#64)) none
      (some (subWithBorrow s.inp.cin (lo s.inp.a) (lo s.inp.b)).2) none) :=
  writeOutputs_eq_afterSuccess s _

end exec

/-- Settles O20: the carry chain is the addition of 128-bit values, which wraps alike in both readings. -/
theorem addIsTheSumModulo : Obligations.AddIsTheSumModulo := by
  refine ⟨decode_encode .add, fun s => ?_⟩
  rw [← add_eq_ofNat]
  exact ⟨exec_add s, BitVec.toInt_add _ _⟩

/-- Settles O21: the primitive's word is the sum's low 64 bits, and the carry is the sum's comparison with 2^64. -/
theorem adc64AddsWordsWithCarry : Obligations.Adc64AddsWordsWithCarry := by
  refine ⟨decode_encode .adc64, fun s => ?_⟩
  rw [exec_adc64, pair_zero_eq_ofNat]
  simp only [addWithCarry, BitVec.toNat_ofNat, lo_toNat]

/-- Settles O22: the chains with B = `(1, 0)`. -/
theorem incAndDecByOne : Obligations.IncAndDecByOne := by
  refine ⟨decode_encode .inc, decode_encode .dec, fun s => ⟨?_, ?_⟩⟩
  · rw [exec_inc, add_eq_ofNat]; rfl
  · rw [exec_dec, sub_eq_ofInt]; rfl

/-- Settles O23: the borrow chain is the subtraction of 128-bit values, which wraps alike in both readings. -/
theorem subIsTheDifferenceModulo : Obligations.SubIsTheDifferenceModulo := by
  refine ⟨decode_encode .sub, fun s => ?_⟩
  rw [← sub_eq_ofInt]
  exact ⟨exec_sub s, BitVec.toInt_sub⟩

/-- Settles O24: the primitive's word is the difference modulo 2^64, and the borrow is the difference's sign. -/
theorem sbb64SubtractsWordsWithBorrow : Obligations.Sbb64SubtractsWordsWithBorrow := by
  refine ⟨decode_encode .sbb64, fun s => ?_⟩
  rw [exec_sbb64, pair_zero_eq_ofNat]
  simp only [subWithBorrow, BitVec.toNat_ofInt, lo_toNat, Nat.cast_pow, Nat.cast_ofNat]

/-- Settles O25: the negated value is `negValue`, which is complement plus one and fixes SMIN and 0. -/
theorem negIsTwosComplementNegation : Obligations.NegIsTwosComplementNegation := by
  refine ⟨decode_encode .neg, fun s => ⟨exec_neg s, ?_, ?_, ?_⟩⟩
  · exact (negValue_eq_neg _).trans (BitVec.neg_eq_not_add _)
  · intro hmin; rw [hmin]; decide
  · intro hzero; rw [hzero]; decide

/-- A law's command leaves what the instruction leaves on the inputs it presents. -/
theorem issueOn_eq_of_exec {i : Instr} {a b : Value} {cnt : BitVec 32} {cin : Bool} {s t : State}
    (h : exec i (s.present { cmd := encode i, a := a, b := b, cnt := cnt, cin := cin, path := s.inp.path }) = .next t) :
    issueOn i a b cnt cin s = .next t :=
  (issueOn_eq _ _ _ _ _ _ (decode_encode i)).trans h

section issue
variable (a b : Value) (cnt : BitVec 32) (cin : Bool) (s : State)

theorem resultY_issueOn_add : resultY (issueOn .add a b cnt cin s) = some (a + b) :=
  congrArg resultY (issueOn_eq_of_exec (exec_add _))

theorem resultY_issueOn_sub : resultY (issueOn .sub a b cnt cin s) = some (a - b) :=
  congrArg resultY (issueOn_eq_of_exec (exec_sub _))

theorem resultY_issueOn_inc : resultY (issueOn .inc a b cnt cin s) = some (a + 1#128) :=
  congrArg resultY (issueOn_eq_of_exec (exec_inc _))

theorem resultY_issueOn_dec : resultY (issueOn .dec a b cnt cin s) = some (a - 1#128) :=
  congrArg resultY (issueOn_eq_of_exec (exec_dec _))

theorem resultY_issueOn_neg : resultY (issueOn .neg a b cnt cin s) = some (-a) := by
  rw [← negValue_eq_neg]
  exact congrArg resultY (issueOn_eq_of_exec (exec_neg _))

theorem resultY_issueOn_adc64 :
    resultY (issueOn .adc64 a b cnt cin s) = some (pair (addWithCarry cin (lo a) (lo b)).1 0#64) :=
  congrArg resultY (issueOn_eq_of_exec (exec_adc64 _))

theorem resultF_issueOn_adc64 : resultF (issueOn .adc64 a b cnt cin s) = some (addWithCarry cin (lo a) (lo b)).2 :=
  congrArg resultF (issueOn_eq_of_exec (exec_adc64 _))

theorem resultF_issueOn_sbb64 : resultF (issueOn .sbb64 a b cnt cin s) = some (subWithBorrow cin (lo a) (lo b)).2 :=
  congrArg resultF (issueOn_eq_of_exec (exec_sbb64 _))

end issue

/-- With no borrow in, SBB64 borrows exactly where A's word is below B's (R144). -/
theorem subWithBorrow_false_borrow (x y : Word64) : (subWithBorrow false x y).2 = decide (x.toNat < y.toNat) := by
  simp only [subWithBorrow, Bool.toNat_false]
  exact decide_eq_decide.mpr (by omega)

/-- Settles O41: the commands add and subtract values, and the two ADC64 commands run the two links of ADD's chain. -/
theorem addAndSubtractLaws : Obligations.AddAndSubtractLaws := by
  intro s s' a b cnt cin
  refine ⟨⟨_, resultY_issueOn_add a b cnt cin s, ?inverse⟩, ?commutes,
    ⟨_, resultY_issueOn_neg b a cnt cin s, ?negation⟩, ⟨_, resultY_issueOn_dec a b cnt cin s, ?predecessor⟩,
    resultF_issueOn_adc64 a b cnt false s, ?borrow,
    _, _, _, resultY_issueOn_adc64 _ _ cnt false s, resultF_issueOn_adc64 _ _ cnt false s,
    resultY_issueOn_adc64 _ _ cnt _ s', ?carry, ?chain⟩
  case inverse => rw [resultY_issueOn_sub, BitVec.add_sub_cancel]
  case commutes => rw [resultY_issueOn_add, resultY_issueOn_add, BitVec.add_comm]
  case negation => rw [resultY_issueOn_sub, resultY_issueOn_add, BitVec.sub_eq_add_neg]
  case predecessor => rw [resultY_issueOn_inc, BitVec.sub_add_cancel]
  case borrow => rw [resultF_issueOn_sbb64, subWithBorrow_false_borrow]
  case carry => simp only [resultF_issueOn_adc64, lo_pair, addWithCarry_hi_carry]
  case chain => simp only [resultY_issueOn_add, ← addValues_eq_add, addValues_eq_pair, lo_pair]

end Sys2Proof.Machine
end

section
/-! The multiply family (43_multiply.md): both paths of R40 give the exact product of two words, and MUL's three truncated
products are the multiplication of 128-bit values. -/

namespace Sys2Proof.Machine

open Claims

section wideProduct
variable (x y : Word64)

theorem word_mul_lt : x.toNat * y.toNat < 2 ^ 128 :=
  calc x.toNat * y.toNat < 2 ^ 64 * 2 ^ 64 := Nat.mul_lt_mul'' x.isLt y.isLt
    _ = 2 ^ 128 := by norm_num

/-- No bit of the product is lost (R170). -/
theorem wideProduct_toNat : (wideProduct x y).toNat = x.toNat * y.toNat := by
  have hlt := word_mul_lt x y
  rw [wideProduct, pair_toNat, BitVec.toNat_ofNat, BitVec.toNat_ofNat]
  omega

theorem wideProduct_eq_ofNat : wideProduct x y = BitVec.ofNat 128 (x.toNat * y.toNat) := by
  rw [← wideProduct_toNat, BitVec.ofNat_toNat, BitVec.setWidth_eq]

end wideProduct

/-- `mid` of R171: the column of weight 2^32, from the partial products that reach it. -/
def schoolbookMid (p00 p01 p10 : Nat) : Nat := p00 / 2 ^ 32 + p01 % 2 ^ 32 + p10 % 2 ^ 32

/-- The sum that forms the low word (R171). -/
def schoolbookLow (p00 p01 p10 : Nat) : Nat := p00 % 2 ^ 32 + schoolbookMid p00 p01 p10 % 2 ^ 32 * 2 ^ 32

/-- The sum that forms the high word (R171). -/
def schoolbookHigh (p00 p01 p10 p11 : Nat) : Nat :=
  p11 + p01 / 2 ^ 32 + p10 / 2 ^ 32 + schoolbookMid p00 p01 p10 / 2 ^ 32

theorem schoolbookMid_lt {p00 : Nat} (p01 p10 : Nat) (h : p00 < 2 ^ 64) : schoolbookMid p00 p01 p10 < 3 * 2 ^ 32 := by
  unfold schoolbookMid
  omega

section columns
variable (p00 p01 p10 p11 : Nat)

theorem schoolbookLow_lt : schoolbookLow p00 p01 p10 < 2 ^ 64 := by
  unfold schoolbookLow
  omega

/-- The two sums keep the whole of the four partial products, each with its weight. -/
theorem schoolbook_columns : schoolbookHigh p00 p01 p10 p11 * 2 ^ 64 + schoolbookLow p00 p01 p10 =
    p00 + (p01 + p10) * 2 ^ 32 + p11 * 2 ^ 64 := by
  unfold schoolbookHigh schoolbookLow schoolbookMid
  omega

end columns

theorem digit_mul_lt {d e : Nat} (hd : d < 2 ^ 32) (he : e < 2 ^ 32) : d * e < 2 ^ 64 :=
  calc d * e < 2 ^ 32 * 2 ^ 32 := Nat.mul_lt_mul'' hd he
    _ = 2 ^ 64 := by norm_num

section schoolbook
variable (a b : Word64)

/-- The sum that forms the low word of the product of two words. -/
def lowSum : Nat :=
  schoolbookLow (a.toNat % 2 ^ 32 * (b.toNat % 2 ^ 32)) (a.toNat % 2 ^ 32 * (b.toNat / 2 ^ 32))
    (a.toNat / 2 ^ 32 * (b.toNat % 2 ^ 32))

/-- The sum that forms the high word of the product of two words. -/
def highSum : Nat :=
  schoolbookHigh (a.toNat % 2 ^ 32 * (b.toNat % 2 ^ 32)) (a.toNat % 2 ^ 32 * (b.toNat / 2 ^ 32))
    (a.toNat / 2 ^ 32 * (b.toNat % 2 ^ 32)) (a.toNat / 2 ^ 32 * (b.toNat / 2 ^ 32))

theorem digitNat_word_zero : digitNat a.toNat 0 = a.toNat % 2 ^ 32 := by
  rw [digitNat, pow_zero, Nat.div_one]; rfl

theorem digitNat_word_one : digitNat a.toNat 1 = a.toNat / 2 ^ 32 :=
  (div_pow_eq_topDigit (m := 1) a.isLt).symm

theorem schoolbookProduct_eq_pair :
    schoolbookProduct a b = pair (BitVec.ofNat 64 (lowSum a b)) (BitVec.ofNat 64 (highSum a b)) := by
  simp only [schoolbookProduct, digitNat_word_zero, digitNat_word_one]
  rfl

/-- Multiplying out the digits of both words: no carry is lost (R171). -/
theorem schoolbookSums_exact : highSum a b * 2 ^ 64 + lowSum a b = a.toNat * b.toNat := by
  rw [highSum, lowSum, schoolbook_columns]
  conv_rhs => rw [← Nat.div_add_mod a.toNat (2 ^ 32), ← Nat.div_add_mod b.toNat (2 ^ 32)]
  ring

theorem lowSum_lt : lowSum a b < 2 ^ 64 := schoolbookLow_lt _ _ _

theorem highSum_lt : highSum a b < 2 ^ 64 := by
  have hexact := schoolbookSums_exact a b
  have hlt := word_mul_lt a b
  omega

theorem lo_schoolbookProduct : (lo (schoolbookProduct a b)).toNat = lowSum a b := by
  rw [schoolbookProduct_eq_pair, lo_pair, BitVec.toNat_ofNat, Nat.mod_eq_of_lt (lowSum_lt a b)]

theorem hi_schoolbookProduct : (hi (schoolbookProduct a b)).toNat = highSum a b := by
  rw [schoolbookProduct_eq_pair, hi_pair, BitVec.toNat_ofNat, Nat.mod_eq_of_lt (highSum_lt a b)]

theorem schoolbookProduct_toNat : (schoolbookProduct a b).toNat = a.toNat * b.toNat := by
  rw [value_eq_words, hi_schoolbookProduct, lo_schoolbookProduct, schoolbookSums_exact]

/-- PATH and HAS_FAST_PATH do not show in the product (R40, R170). -/
theorem multiplierByPath_eq_wideProduct (fast : Bool) : multiplierByPath fast a b = wideProduct a b := by
  cases fast with
  | true => rfl
  | false => exact BitVec.eq_of_toNat_eq ((schoolbookProduct_toNat a b).trans (wideProduct_toNat a b).symm)

end schoolbook

/-- Truncating the high word drops what has weight 2^128: the top product, and the carries out of the high word. -/
theorem truncated_words {low : Nat} (top cross high : Nat) (hlow : low < 2 ^ 64) :
    (high + cross) % 2 ^ 64 * 2 ^ 64 + low =
      (top * 2 ^ 128 + cross * 2 ^ 64 + (high * 2 ^ 64 + low)) % 2 ^ 128 := by
  omega

section mulValues
variable (a b : Value)

theorem mulValues_eq_pair : mulValues a b = pair (lo (wideProduct (lo a) (lo b)))
    (BitVec.ofNat 64 ((hi (wideProduct (lo a) (lo b))).toNat + (lo a).toNat * (hi b).toNat +
      (hi a).toNat * (lo b).toNat)) := rfl

/-- MUL leaves out the high words' product, which has weight 2^128 (R172). -/
theorem mulValues_eq_mul : mulValues a b = a * b := by
  have hlow := wideProduct_toNat (lo a) (lo b)
  rw [value_eq_words (wideProduct _ _)] at hlow
  have hproduct : a.toNat * b.toNat = (hi a).toNat * (hi b).toNat * 2 ^ 128 +
      ((lo a).toNat * (hi b).toNat + (hi a).toNat * (lo b).toNat) * 2 ^ 64 + (lo a).toNat * (lo b).toNat := by
    rw [value_eq_words a, value_eq_words b]; ring
  apply BitVec.eq_of_toNat_eq
  rw [BitVec.toNat_mul, hproduct, ← hlow, mulValues_eq_pair, pair_toNat, BitVec.toNat_ofNat, Nat.add_assoc]
  exact truncated_words _ _ _ (lo (wideProduct (lo a) (lo b))).isLt

theorem lo_mul : lo (a * b) = lo (wideProduct (lo a) (lo b)) := by
  rw [← mulValues_eq_mul, mulValues_eq_pair, lo_pair]

theorem mul_eq_ofNat : a * b = BitVec.ofNat 128 (a.toNat * b.toNat) := by
  rw [BitVec.ofNat_mul, BitVec.ofNat_toNat, BitVec.ofNat_toNat, BitVec.setWidth_eq, BitVec.setWidth_eq]

end mulValues

/-- Two values of one word each have a product that 128 bits hold (R173). -/
theorem mul_eq_wideProduct {a b : Value} (ha : hi a = 0#64) (hb : hi b = 0#64) :
    a * b = wideProduct (lo a) (lo b) := by
  rw [mul_eq_ofNat, wideProduct_eq_ofNat, value_eq_words a, value_eq_words b, ha, hb, BitVec.toNat_ofNat,
    Nat.zero_mod, Nat.zero_mul, Nat.zero_add, Nat.zero_add]

section exec
variable (s : State)

theorem exec_mul : exec .mul s = .next (afterSuccess s (some (s.inp.a * s.inp.b)) none none none) := by
  rw [← mulValues_eq_mul]
  exact writeOutputs_eq_afterSuccess s _

theorem exec_wmul64 :
    exec .wmul64 s = .next (afterSuccess s (some (wideProduct (lo s.inp.a) (lo s.inp.b))) none none none) :=
  writeOutputs_eq_afterSuccess s _

variable (a b : Value) (cnt : BitVec 32) (cin : Bool)

theorem resultY_issueOn_mul : resultY (issueOn .mul a b cnt cin s) = some (a * b) :=
  congrArg resultY (issueOn_eq_of_exec (exec_mul _))

theorem resultY_issueOn_wmul64 : resultY (issueOn .wmul64 a b cnt cin s) = some (wideProduct (lo a) (lo b)) :=
  congrArg resultY (issueOn_eq_of_exec (exec_wmul64 _))

end exec

/-- Settles O26: the product of two words fits 128 bits, so its word pair is the product. -/
theorem wmul64IsTheExactProduct : Obligations.Wmul64IsTheExactProduct := by
  refine ⟨decode_encode .wmul64, fun s => ?_⟩
  rw [exec_wmul64, wideProduct_eq_ofNat, ← lo_toNat, ← lo_toNat]
  exact ⟨word_mul_lt _ _, rfl⟩

/-- Settles O27: MUL is the multiplication of 128-bit values. -/
theorem mulIsTheProductModulo : Obligations.MulIsTheProductModulo := by
  refine ⟨decode_encode .mul, fun s => ?_⟩
  rw [← mul_eq_ofNat, exec_mul]

/-- Settles O42: each command leaves its product in Y, and each law holds of the products. -/
theorem multiplyLaws : Obligations.MultiplyLaws := by
  intro s s' a b cnt cin
  simp only [resultY_issueOn_mul, resultY_issueOn_wmul64, Option.some.injEq]
  refine ⟨?one, ?zero, BitVec.mul_comm a b, ⟨_, _, rfl, rfl, lo_mul a b⟩, mul_eq_wideProduct⟩
  case one => rw [pair_one_zero]; exact BitVec.mul_one a
  case zero =>
    have hzero : pair 0 0 = 0#128 := by decide
    rw [hzero]; exact BitVec.mul_zero

/-- Settles O47: the two sums keep every partial product, and fit their words because the product fits 128 bits. -/
theorem schoolbookPathIsTheExactProduct : Obligations.SchoolbookPathIsTheExactProduct := by
  refine ⟨fun a b => ?_, fun fast s => by rw [multiplierByPath_eq_wideProduct, exec_wmul64]⟩
  have hmod (n : Nat) : n % 2 ^ 32 < 2 ^ 32 := Nat.mod_lt n (by decide)
  have hdiv (x : Word64) : x.toNat / 2 ^ 32 < 2 ^ 32 := Nat.div_lt_of_lt_mul x.isLt
  have hp00 := digit_mul_lt (hmod a.toNat) (hmod b.toNat)
  exact ⟨hp00, digit_mul_lt (hmod _) (hdiv b), digit_mul_lt (hdiv a) (hmod _), digit_mul_lt (hdiv a) (hdiv b),
    schoolbookMid_lt _ _ hp00, lowSum_lt a b, Nat.le_pred_of_lt (highSum_lt a b),
    lo_schoolbookProduct a b, hi_schoolbookProduct a b, schoolbookProduct_toNat a b,
    multiplierByPath_eq_wideProduct a b⟩

end Sys2Proof.Machine
end

section
/-! The divide family (44_divide.md): DIVU and REMU leave the parts of the contract R190, which meets the division laws
R205; and what R196, R199 and Algorithm D claim of the routines that reach it. -/

namespace Sys2Proof.Machine

open Claims Config

section contract
variable (a b : Value)

/-- The quotient is at most the numerator, so 128 bits hold it (R190). -/
theorem divideExact_fst_toNat : (divideExact a b).1.toNat = a.toNat / b.toNat := by
  simp only [divideExact, BitVec.toNat_ofNat]
  exact Nat.mod_eq_of_lt ((Nat.div_le_self _ _).trans_lt a.isLt)

theorem divideExact_snd_toNat : (divideExact a b).2.toNat = a.toNat % b.toNat := by
  have hrem : a.toNat - a.toNat / b.toNat * b.toNat = a.toNat % b.toNat := by
    rw [Nat.mul_comm, ← Nat.mod_eq_sub]
  simp only [divideExact, BitVec.toNat_ofNat, hrem]
  exact Nat.mod_eq_of_lt ((Nat.mod_le _ _).trans_lt a.isLt)

/-- The division identity holds of the commands' wrapping product and sum too (R205). -/
theorem divideExact_mul_add : (divideExact a b).1 * b + (divideExact a b).2 = a := by
  apply BitVec.eq_of_toNat_eq
  rw [BitVec.toNat_add, BitVec.toNat_mul, divideExact_fst_toNat, divideExact_snd_toNat, Nat.mod_add_mod,
    Nat.div_add_mod', Nat.mod_eq_of_lt a.isLt]

variable {b}

theorem divideExact_snd_lt (h : b.toNat ≠ 0) : (divideExact a b).2.toNat < b.toNat :=
  divideExact_snd_toNat a b ▸ Nat.mod_lt _ (Nat.pos_of_ne_zero h)

/-- A long divisor leaves a short quotient (R204). -/
theorem divideExact_fst_lt {m n : Nat} (hmn : 2 ^ 128 = 2 ^ m * 2 ^ n) (h : 2 ^ m ≤ b.toNat) :
    (divideExact a b).1.toNat < 2 ^ n := by
  rw [divideExact_fst_toNat]
  refine Nat.div_lt_of_lt_mul ?_
  calc a.toNat < 2 ^ 128 := a.isLt
    _ = 2 ^ m * 2 ^ n := hmn
    _ ≤ b.toNat * 2 ^ n := Nat.mul_le_mul_right _ h

end contract

section exec
variable (s : State)

/-- A divide command whose results are `o`, in the terms the claims use: by its divisor, `o` or DIV_ZERO (R191). -/
theorem divideCommand_eq {result : Value → Value → Outputs} {o : Outputs} (ho : result (opA s) (opB s) = o) :
    (s.inp.b.toNat ≠ 0 → divideCommand result s = .next (afterSuccess s o.y o.z o.f o.ord)) ∧
      (s.inp.b.toNat = 0 → divideCommand result s = .next (afterFault s 0x0D#8)) := by
  subst ho
  rcases divideCommand_cases result s with ⟨hzero, hfault⟩ | ⟨hne, hdone⟩
  · exact ⟨fun hne => absurd hzero hne, fun _ => hfault.trans (congrArg _ (raiseFault_eq_afterFault .divZero s))⟩
  · exact ⟨fun _ => hdone.trans (congrArg _ (complete_eq_afterSuccess _ s)), fun hzero => absurd hzero hne⟩

theorem exec_divu :
    (s.inp.b.toNat ≠ 0 → exec .divu s =
        .next (afterSuccess s (some (divideExact s.inp.a s.inp.b).1) (some (divideExact s.inp.a s.inp.b).2) none none)) ∧
      (s.inp.b.toNat = 0 → exec .divu s = .next (afterFault s 0x0D#8)) :=
  divideCommand_eq s (result := fun a b => yAndZ (divideExact a b).1 (divideExact a b).2) rfl

theorem exec_remu :
    (s.inp.b.toNat ≠ 0 → exec .remu s =
        .next (afterSuccess s (some (divideExact s.inp.a s.inp.b).2) none none none)) ∧
      (s.inp.b.toNat = 0 → exec .remu s = .next (afterFault s 0x0D#8)) :=
  divideCommand_eq s (result := fun a b => yOnly (divideExact a b).2) rfl

variable (a : Value) {b : Value} (cnt : BitVec 32) (cin : Bool) (h : b.toNat ≠ 0)
include h

theorem resultY_issueOn_divu : resultY (issueOn .divu a b cnt cin s) = some (divideExact a b).1 :=
  congrArg resultY (issueOn_eq_of_exec ((exec_divu _).1 h))

theorem resultZ_issueOn_divu : resultZ (issueOn .divu a b cnt cin s) = some (divideExact a b).2 :=
  congrArg resultZ (issueOn_eq_of_exec ((exec_divu _).1 h))

theorem resultY_issueOn_remu : resultY (issueOn .remu a b cnt cin s) = some (divideExact a b).2 :=
  congrArg resultY (issueOn_eq_of_exec ((exec_remu _).1 h))

end exec

/-- Settles O29: DIVU leaves both parts of the contract. -/
theorem divuQuotientAndRemainder : Obligations.DivuQuotientAndRemainder := by
  refine ⟨decode_encode .divu, fun s => ⟨fun hb => ?_, (exec_divu s).2⟩⟩
  refine ⟨_, _, (exec_divu s).1 hb, divideExact_fst_toNat _ _, ?_, divideExact_snd_lt _ hb⟩
  rw [divideExact_fst_toNat, divideExact_snd_toNat, Nat.div_add_mod']

/-- Settles O30: REMU leaves the second part of the contract. -/
theorem remuRemainder : Obligations.RemuRemainder :=
  ⟨decode_encode .remu, fun s => ⟨fun hb => ⟨_, (exec_remu s).1 hb, divideExact_snd_toNat _ _⟩, (exec_remu s).2⟩⟩

/-- Settles O43: the commands leave the contract's parts and the values' product and sum, of which each law holds. -/
theorem unsignedDivisionIdentity : Obligations.UnsignedDivisionIdentity := by
  intro s a b cnt cin hb
  refine ⟨_, _, _, resultY_issueOn_divu s a cnt cin hb, resultZ_issueOn_divu s a cnt cin hb,
    resultY_issueOn_mul _ _ _ _ _, ?_, divideExact_snd_lt a hb, resultY_issueOn_remu s a cnt cin hb,
    divideExact_fst_lt a (m := 64) (n := 64) (by norm_num), divideExact_fst_lt a (m := 32) (n := 96) (by norm_num)⟩
  rw [resultY_issueOn_add, divideExact_mul_add]

/-- A two-word dividend whose high word is below the divisor has a quotient of one word (R196). -/
theorem twoWord_div_lt {high low d : Nat} (hhigh : high < d) (hlow : low < 2 ^ 64) :
    (high * 2 ^ 64 + low) / d < 2 ^ 64 := by
  refine Nat.div_lt_of_lt_mul ?_
  calc high * 2 ^ 64 + low < (high + 1) * 2 ^ 64 := by omega
    _ ≤ d * 2 ^ 64 := Nat.mul_le_mul_right _ hhigh

/-- Settles O48: each routine meets the contract, and the first step's remainder is below the divisor. -/
theorem shortDivisorRoutinesMeetTheContract : Obligations.ShortDivisorRoutinesMeetTheContract :=
  fun _ _ hb => ⟨divideOneDigit_eq hb, fun hlt => ⟨divideTwoSteps_eq hb hlt,
    twoWord_div_lt (Nat.mod_lt _ (Nat.pos_of_ne_zero hb)) (Nat.mod_lt _ (by decide))⟩⟩

/-- A turn of the correction loop whose decrement makes the remainder overflow a digit is the last one, with any fuel
left (R199). -/
theorem correctDigit_lastTurn {top rhat : Nat} (h : digitBase ≤ rhat + top) (second next k qhat : Nat) :
    correctDigit top second next (k + 1) qhat rhat =
      if digitBase ≤ qhat ∨ rhat * digitBase + next < qhat * second then (qhat - 1, rhat + top) else (qhat, rhat) := by
  rw [correctDigit_succ, if_pos h]

/-- Two top digits reach the base, so the second turn is the last one (R199, log 13). -/
theorem correctDigit_two_turns {top : Nat} (htop : digitBase ≤ top + top) (second next k qhat rhat : Nat) :
    correctDigit top second next (k + 2) qhat rhat = correctDigit top second next 2 qhat rhat := by
  have hlast : digitBase ≤ rhat + top + top := by omega
  rw [correctDigit_succ _ _ _ (k + 1), correctDigit_succ _ _ _ 1, correctDigit_lastTurn hlast,
    correctDigit_lastTurn hlast]

/-- Settles O49: the second turn ends the loop, and a normalized divisor makes its estimate the true digit or one more. -/
theorem correctionLeavesAtMostOneTooMany : Obligations.CorrectionLeavesAtMostOneTooMany := by
  refine ⟨fun top second next fuel qhat rhat htop hfuel => ?turns, fun vn un j htwo hvn hun htop hlen hwindow => ?digit⟩
  case turns =>
    have hbase : digitBase = 2 ^ 32 := rfl
    obtain ⟨k, rfl⟩ := Nat.exists_eq_add_of_le' hfuel
    exact correctDigit_two_turns (by omega) _ _ _ _ _
  case digit => exact estimateDigit_bounds ⟨htwo, hvn, htop⟩ hun hlen hwindow

/-- Settles O50: a divisor of 2^32 or more has the two digits that Algorithm D needs. -/
theorem algorithmDMeetsTheContract : Obligations.AlgorithmDMeetsTheContract := fun _ _ => algorithmD_eq

end Sys2Proof.Machine
end

section
/-! The signed wrapper (45_signed_wrapper.md): a value is its sign applied to its absolute value, so the product of the
signed values is MUL's, and the wrapper around the divider is the truncating division of 128-bit values. -/

namespace Sys2Proof.Machine

open Claims

/-- Applying a sign is negation or nothing (R10). -/
theorem applySign_eq (negative : Bool) (v : Value) : applySign negative v = if negative then -v else v := by
  rw [applySign, negValue_eq_neg]

theorem absValue_eq (v : Value) : absValue v = if v.msb then -v else v := by
  rw [absValue, negValue_eq_neg]

section signs
variable (p q : Bool) (v w : Value)

/-- Stripping the sign and applying it again gives the value back, SMIN too (R230). -/
theorem applySign_msb_absValue : applySign v.msb (absValue v) = v := by
  rw [applySign_eq, absValue_eq]
  cases v.msb with
  | true => exact BitVec.neg_neg
  | false => rfl

/-- The sign of a product is the parity of its factors' signs (R230, R233). -/
theorem applySign_mul_applySign : applySign p v * applySign q w = applySign (p ^^ q) (v * w) := by
  simp only [applySign_eq]
  cases p <;> cases q
  case false.false => rfl
  case false.true => exact BitVec.mul_neg v w
  case true.false => exact BitVec.neg_mul v w
  case true.true => exact BitVec.neg_mul_neg v w

theorem applySign_add : applySign p (v + w) = applySign p v + applySign p w := by
  simp only [applySign_eq]
  cases p with
  | true => exact BitVec.neg_add.trans (BitVec.sub_eq_add_neg _ _)
  | false => rfl

end signs

section values
variable (a b : Value)

theorem mul_eq_ofInt : a * b = BitVec.ofInt 128 (a.toInt * b.toInt) := by
  rw [BitVec.ofInt_mul, BitVec.ofInt_toInt, BitVec.ofInt_toInt]

/-- The product's low 128 bits do not depend on the reading of its factors (R233). -/
theorem mulSigned_eq_mul : mulSigned a b = a * b := by
  rw [mulSigned, mulValues_eq_mul, signParity, ← applySign_mul_applySign, applySign_msb_absValue,
    applySign_msb_absValue]

theorem divideExact_eq_udiv_umod : divideExact a b = (a / b, a % b) :=
  Prod.ext (BitVec.eq_of_toNat_eq ((divideExact_fst_toNat a b).trans BitVec.toNat_udiv.symm))
    (BitVec.eq_of_toNat_eq ((divideExact_snd_toNat a b).trans BitVec.toNat_umod.symm))

theorem divideSigned_eq : divideSigned a b = (applySign (signParity a b) (divideExact (absValue a) (absValue b)).1,
    applySign a.msb (divideExact (absValue a) (absValue b)).2) := rfl

/-- The wrapper's quotient and remainder are those of the truncating signed division, whose four cases are
the wrapper's pairs of signs (R234). -/
theorem divideSigned_eq_sdiv_srem : divideSigned a b = (a.sdiv b, a.srem b) := by
  rw [divideSigned_eq, divideExact_eq_udiv_umod, BitVec.sdiv_eq, BitVec.srem_eq, signParity]
  simp only [applySign_eq, absValue_eq]
  cases a.msb <;> cases b.msb <;> rfl

/-- The signed division identity of the wrapping product and sum: the parity and the divisor's sign make the dividend's
(R238). -/
theorem divideSigned_mul_add : (divideSigned a b).1 * b + (divideSigned a b).2 = a := by
  have hparity : (signParity a b ^^ b.msb) = a.msb := by
    rw [signParity, Bool.xor_assoc, Bool.xor_self, Bool.xor_false]
  calc (divideSigned a b).1 * b + (divideSigned a b).2
    _ = applySign (signParity a b) (divideExact (absValue a) (absValue b)).1 * applySign b.msb (absValue b) +
          applySign a.msb (divideExact (absValue a) (absValue b)).2 := by rw [applySign_msb_absValue]; rfl
    _ = applySign a.msb ((divideExact (absValue a) (absValue b)).1 * absValue b +
          (divideExact (absValue a) (absValue b)).2) := by rw [applySign_mul_applySign, hparity, ← applySign_add]
    _ = a := by rw [divideExact_mul_add, applySign_msb_absValue]

/-- The one quotient that 128 bits do not hold wraps to SMIN (R236, R237). -/
theorem divideSigned_smin_umax : divideSigned smin umax = (smin, 0#128) := by decide

theorem divideSigned_fst : (divideSigned a b).1 = a.sdiv b := congrArg Prod.fst (divideSigned_eq_sdiv_srem a b)

theorem divideSigned_snd : (divideSigned a b).2 = a.srem b := congrArg Prod.snd (divideSigned_eq_sdiv_srem a b)

theorem divideSigned_snd_toInt : (divideSigned a b).2.toInt = a.toInt.tmod b.toInt := by
  rw [divideSigned_snd, BitVec.toInt_srem]

/-- The remainder is 0 or has the dividend's sign (R235). -/
theorem divideSigned_snd_eq_zero_or_msb : (divideSigned a b).2 = 0#128 ∨ (divideSigned a b).2.msb = a.msb := by
  rw [divideSigned_snd]
  rcases eq_or_ne (a.srem b) 0 with hzero | hne
  · exact .inl hzero
  · exact .inr (by rw [BitVec.msb_srem, decide_eq_true hne, Bool.and_true])

variable {a b}

theorem divideSigned_fst_toInt (h : ¬(a = smin ∧ b = umax)) :
    (divideSigned a b).1.toInt = a.toInt.tdiv b.toInt := by
  rw [divideSigned_fst]
  exact BitVec.toInt_sdiv_of_ne_or_ne a b (not_and_or.mp h)

theorem toInt_ne_zero_of_toNat_ne_zero (h : b.toNat ≠ 0) : b.toInt ≠ 0 :=
  fun hzero => h (congrArg BitVec.toNat (BitVec.eq_of_toInt_eq (hzero.trans BitVec.toInt_zero.symm)))

/-- The remainder is smaller than the divisor in magnitude (R235). -/
theorem divideSigned_snd_natAbs_lt (h : b.toNat ≠ 0) : (divideSigned a b).2.toInt.natAbs < b.toInt.natAbs := by
  rw [divideSigned_snd_toInt, Int.natAbs_tmod]
  exact Nat.mod_lt _ (Int.natAbs_pos.mpr (toInt_ne_zero_of_toNat_ne_zero h))

/-- Without sign bits the wrapper only runs the unsigned divider (R238). -/
theorem divideSigned_eq_divideExact (ha : a.msb = false) (hb : b.msb = false) :
    divideSigned a b = divideExact a b := by
  rw [divideSigned_eq, signParity, absValue_eq, absValue_eq, ha, hb]
  rfl

end values

section exec
variable (s : State)

theorem exec_muls : exec .muls s = .next (afterSuccess s (some (s.inp.a * s.inp.b)) none none none) := by
  rw [← mulSigned_eq_mul]
  exact writeOutputs_eq_afterSuccess s _

theorem exec_divs :
    (s.inp.b.toNat ≠ 0 → exec .divs s =
        .next (afterSuccess s (some (divideSigned s.inp.a s.inp.b).1) (some (divideSigned s.inp.a s.inp.b).2)
          none none)) ∧
      (s.inp.b.toNat = 0 → exec .divs s = .next (afterFault s 0x0D#8)) :=
  divideCommand_eq s (result := fun a b => yAndZ (divideSigned a b).1 (divideSigned a b).2) rfl

theorem exec_rems :
    (s.inp.b.toNat ≠ 0 → exec .rems s =
        .next (afterSuccess s (some (divideSigned s.inp.a s.inp.b).2) none none none)) ∧
      (s.inp.b.toNat = 0 → exec .rems s = .next (afterFault s 0x0D#8)) :=
  divideCommand_eq s (result := fun a b => yOnly (divideSigned a b).2) rfl

variable (a : Value) {b : Value} (cnt : BitVec 32) (cin : Bool) (h : b.toNat ≠ 0)
include h

theorem resultY_issueOn_divs : resultY (issueOn .divs a b cnt cin s) = some (divideSigned a b).1 :=
  congrArg resultY (issueOn_eq_of_exec ((exec_divs _).1 h))

theorem resultZ_issueOn_divs : resultZ (issueOn .divs a b cnt cin s) = some (divideSigned a b).2 :=
  congrArg resultZ (issueOn_eq_of_exec ((exec_divs _).1 h))

theorem resultY_issueOn_rems : resultY (issueOn .rems a b cnt cin s) = some (divideSigned a b).2 :=
  congrArg resultY (issueOn_eq_of_exec ((exec_rems _).1 h))

end exec

/-- Settles O28: MULS is the multiplication of 128-bit values, as MUL is. -/
theorem mulsIsTheSignedProductAndEqualsMul : Obligations.MulsIsTheSignedProductAndEqualsMul := by
  refine ⟨decode_encode .muls, fun s => ?_⟩
  rw [← mul_eq_ofInt, exec_mul]
  exact ⟨exec_muls s, exec_muls s⟩

/-- Settles O31: DIVS leaves both parts of the truncating division, of which SMIN / -1 alone wraps. -/
theorem divsTruncatingQuotientAndRemainder : Obligations.DivsTruncatingQuotientAndRemainder := by
  refine ⟨decode_encode .divs, fun s => ⟨fun hb => ?_, (exec_divs s).2⟩⟩
  refine ⟨_, _, (exec_divs s).1 hb, divideSigned_fst_toInt, fun ⟨hmin, hmax⟩ => ?_, divideSigned_snd_toInt _ _⟩
  rw [hmin, hmax, divideSigned_smin_umax]
  exact ⟨rfl, rfl⟩

/-- Settles O32: REMS leaves the second part of the truncating division. -/
theorem remsRemainderHasDividendSign : Obligations.RemsRemainderHasDividendSign := by
  refine ⟨decode_encode .rems, fun s => ⟨fun hb => ?_, (exec_rems s).2⟩⟩
  refine ⟨_, (exec_rems s).1 hb, divideSigned_snd_toInt _ _, divideSigned_snd_eq_zero_or_msb _ _,
    divideSigned_snd_natAbs_lt hb, fun ⟨hmin, hmax⟩ => ?_⟩
  rw [hmin, hmax, divideSigned_smin_umax]

/-- Settles O44: the signs cancel in the identity, and where there are none the wrapper is the unsigned divider. -/
theorem signedDivisionIdentity : Obligations.SignedDivisionIdentity := by
  intro s a b cnt cin hb
  rw [resultY_issueOn_divs s a cnt cin hb, resultZ_issueOn_divs s a cnt cin hb, resultY_issueOn_rems s a cnt cin hb]
  refine ⟨⟨_, _, _, rfl, rfl, resultY_issueOn_mul _ _ _ _ _, ?identity, rfl⟩, fun hna hnb => ?unsigned⟩
  case identity => rw [resultY_issueOn_add, divideSigned_mul_add]
  case unsigned =>
    rw [resultY_issueOn_divu s a cnt cin hb, resultZ_issueOn_divu s a cnt cin hb, resultY_issueOn_remu s a cnt cin hb,
      divideSigned_eq_divideExact hna hnb]
    exact ⟨rfl, rfl, rfl⟩

end Sys2Proof.Machine
end

section
/-! The commands of 46_compare_convert.md: a comparison leaves the order of the compared values, and a conversion
carries the native integer in the low w bits of A into 128 bits. -/

namespace Sys2Proof.Machine

open Claims

section order
variable {m n k : Int}

theorem orderOf_eq_ordLT_iff_swap : orderOf m n = ordLT ↔ orderOf n m = ordGT := by
  rw [orderOf_eq_ordLT_iff, orderOf_eq_ordGT_iff]

theorem orderOf_eq_ordLT_trans (hmn : orderOf m n = ordLT) (hnk : orderOf n k = ordLT) : orderOf m k = ordLT := by
  rw [orderOf_eq_ordLT_iff] at hmn hnk ⊢
  exact hmn.trans hnk

/-- Operands of one sign are as far apart signed as unsigned (R263). -/
theorem orderOf_toNat_eq_orderOf_toInt {a b : Value} (h : a.msb = b.msb) :
    orderOf a.toNat b.toNat = orderOf a.toInt b.toInt := by
  rw [BitVec.toInt_eq_msb_cond, BitVec.toInt_eq_msb_cond, h]
  split_ifs
  · simp only [orderOf, Int.sub_lt_sub_right_iff]
  · rfl

end order

section words
variable (w : NativeWidth) (a : Value)

theorem widthBits_le : widthBits w ≤ 128 := by cases w <;> decide

/-- TEST's two-word test is the test of the whole value (R264). -/
theorem truthValue_eq : truthValue a = decide (a.toNat ≠ 0) := by
  have hwords := value_eq_words a
  simp only [truthValue, ne_eq, BitVec.toNat_eq, BitVec.ofNat_eq_ofNat, BitVec.toNat_zero]
  exact decide_eq_decide.mpr (by omega)

/-- The two's complement reading of a word's bits (R7). -/
theorem toInt_eq_ite_toNat_lt {l : Nat} (x : BitVec l) :
    x.toInt = if x.toNat < 2 ^ (l - 1) then (x.toNat : Int) else (x.toNat : Int) - 2 ^ l := by
  rw [BitVec.toInt_eq_msb_cond, BitVec.msb_eq_decide]
  simp only [decide_eq_true_eq, ← not_lt, ite_not, Nat.cast_pow, Nat.cast_ofNat]

theorem signExtendNative_toInt : (signExtendNative w a).toInt = (nativeBits w a).toInt :=
  BitVec.toInt_signExtend_of_le (widthBits_le w)

theorem zeroExtendNative_toNat : (zeroExtendNative w a).toNat = a.toNat % 2 ^ widthBits w := by
  rw [zeroExtendNative, BitVec.toNat_setWidth_of_le (widthBits_le w), nativeBits_toNat]

/-- TRUNC.w leaves what ZEXT.w leaves (R269, R271). -/
theorem truncateToNative_eq_zeroExtendNative : truncateToNative w a = zeroExtendNative w a := rfl

theorem nativeBits_signExtendNative : nativeBits w (signExtendNative w a) = nativeBits w a := by
  have hle := widthBits_le w
  ext i hi
  simp [signExtendNative, nativeBits, BitVec.getElem_signExtend, hi, Nat.lt_of_lt_of_le hi hle]

theorem signExtendNative_toNat_mod : (signExtendNative w a).toNat % 2 ^ widthBits w = a.toNat % 2 ^ widthBits w := by
  rw [← nativeBits_toNat, nativeBits_signExtendNative, nativeBits_toNat]

end words

section exec
variable (s : State)

theorem exec_cmpu :
    exec .cmpu s = .next (afterSuccess s none none none (some (orderOf s.inp.a.toNat s.inp.b.toNat))) := by
  rw [← orderUnsigned_eq_orderOf]
  exact writeOutputs_eq_afterSuccess s _

theorem exec_cmps :
    exec .cmps s = .next (afterSuccess s none none none (some (orderOf s.inp.a.toInt s.inp.b.toInt))) := by
  rw [← orderSigned_eq_orderOf]
  exact writeOutputs_eq_afterSuccess s _

theorem exec_test :
    exec .test s = .next (afterSuccess s none none (some (decide (s.inp.a.toNat ≠ 0))) none) := by
  rw [← truthValue_eq]
  exact writeOutputs_eq_afterSuccess s _

variable (w : NativeWidth)

theorem exec_sext : exec (.sext w) s = .next (afterSuccess s (some (signExtendNative w s.inp.a)) none none none) :=
  writeOutputs_eq_afterSuccess s _

theorem exec_zext : exec (.zext w) s = .next (afterSuccess s (some (zeroExtendNative w s.inp.a)) none none none) :=
  writeOutputs_eq_afterSuccess s _

theorem exec_trunc : exec (.trunc w) s = .next (afterSuccess s (some (truncateToNative w s.inp.a)) none none none) :=
  writeOutputs_eq_afterSuccess s _

variable (a b : Value) (cnt : BitVec 32) (cin : Bool)

theorem resultY_issueOn_sext : resultY (issueOn (.sext w) a b cnt cin s) = some (signExtendNative w a) :=
  congrArg resultY (issueOn_eq_of_exec (exec_sext _ w))

theorem resultY_issueOn_zext : resultY (issueOn (.zext w) a b cnt cin s) = some (zeroExtendNative w a) :=
  congrArg resultY (issueOn_eq_of_exec (exec_zext _ w))

theorem resultY_issueOn_trunc : resultY (issueOn (.trunc w) a b cnt cin s) = some (truncateToNative w a) :=
  congrArg resultY (issueOn_eq_of_exec (exec_trunc _ w))

/-- Narrowing a result that has the low w bits of A gives those bits (R272). -/
theorem resultY_issueOn_trunc_of_mod {y : Value} (h : y.toNat % 2 ^ widthBits w = a.toNat % 2 ^ widthBits w) :
    ∃ v, resultY (issueOn (.trunc w) y b cnt cin s) = some v ∧
      v.toNat % 2 ^ widthBits w = a.toNat % 2 ^ widthBits w := by
  refine ⟨_, resultY_issueOn_trunc s w y b cnt cin, ?_⟩
  rw [truncateToNative_eq_zeroExtendNative, zeroExtendNative_toNat, Nat.mod_mod, h]

end exec

/-- Settles O36: the word-by-word comparison is the three-way order of the compared values. -/
theorem comparesOrderByTheirValues : Obligations.ComparesOrderByTheirValues := by
  refine ⟨decode_encode .cmpu, decode_encode .cmps, fun s => ⟨?_, exec_cmps s⟩⟩
  rw [exec_cmpu]
  simp only [orderOf, Nat.cast_lt, ordLT, ordGT, ordEQ]

/-- Settles O37: either word is nonzero exactly where the value is. -/
theorem testIsTheNonzeroTest : Obligations.TestIsTheNonzeroTest := ⟨decode_encode .test, exec_test⟩

/-- Settles O38: sign extension keeps the signed value of the native bits. -/
theorem sextKeepsTheSignedValue : Obligations.SextKeepsTheSignedValue := by
  refine ⟨decode_encode (.sext .w8), decode_encode (.sext .w16), decode_encode (.sext .w32), decode_encode (.sext .w64),
    fun w s => ⟨_, exec_sext s w, ?_⟩⟩
  rw [signExtendNative_toInt, toInt_eq_ite_toNat_lt, nativeBits_toNat]

/-- Settles O39: both operations leave the native bits with zeros above. -/
theorem zextAndTruncKeepTheLowBits : Obligations.ZextAndTruncKeepTheLowBits :=
  ⟨decode_encode (.zext .w8), decode_encode (.zext .w16), decode_encode (.zext .w32), decode_encode (.zext .w64),
    decode_encode (.trunc .w8), decode_encode (.trunc .w16), decode_encode (.trunc .w32), decode_encode (.trunc .w64),
    fun w s => ⟨_, zeroExtendNative_toNat w s.inp.a, exec_zext s w, exec_trunc s w⟩⟩

/-- Settles O45: ORD is the order of the operands' values, and both readings of a value are one to one. -/
theorem comparisonLaws : Obligations.ComparisonLaws := by
  intro s a b c cnt cin
  refine ⟨?equalUnsigned, ?equalSigned, ?oneSign, ?orders, ?lessUnsigned, ?lessSigned, ?belowZero, ?aboveZero⟩
  case equalUnsigned =>
    rw [resultOrd_issueOn_cmpu, Option.some_inj]
    exact orderOf_eq_ordEQ_iff.trans (Nat.cast_inj.trans BitVec.toNat_inj)
  case equalSigned =>
    rw [resultOrd_issueOn_cmps, Option.some_inj]
    exact orderOf_eq_ordEQ_iff.trans BitVec.toInt_inj
  case oneSign =>
    intro hsign
    rw [resultOrd_issueOn_cmpu, resultOrd_issueOn_cmps, orderOf_toNat_eq_orderOf_toInt hsign]
  case orders =>
    rintro i (rfl | rfl)
    · simp only [resultOrd_issueOn_cmpu, Option.some_inj]
      exact ⟨orderOf_eq_ordLT_iff_swap, orderOf_eq_ordLT_trans⟩
    · simp only [resultOrd_issueOn_cmps, Option.some_inj]
      exact ⟨orderOf_eq_ordLT_iff_swap, orderOf_eq_ordLT_trans⟩
  case lessUnsigned =>
    rw [resultOrd_issueOn_cmpu, Option.some_inj]
    exact orderOf_eq_ordLT_iff.trans Nat.cast_lt
  case lessSigned =>
    rw [resultOrd_issueOn_cmps, Option.some_inj]
    exact orderOf_eq_ordLT_iff
  case belowZero => rw [resultOrd_issueOn_cmps]; decide
  case aboveZero => rw [resultOrd_issueOn_cmps]; decide

/-- Settles O46: SEXT and ZEXT both keep the low w bits of A, which TRUNC then gives. -/
theorem nativeRoundTrip : Obligations.NativeRoundTrip := by
  intro w s s' a b cnt cin
  obtain ⟨v, hv, hbits⟩ := resultY_issueOn_trunc_of_mod s' w a b cnt cin (signExtendNative_toNat_mod w a)
  obtain ⟨v', hv', hbits'⟩ := resultY_issueOn_trunc_of_mod s' w a b cnt cin
    (y := zeroExtendNative w a) (by rw [zeroExtendNative_toNat, Nat.mod_mod])
  exact ⟨⟨_, _, resultY_issueOn_sext s w a b cnt cin, hv, hbits⟩, _, _, resultY_issueOn_zext s w a b cnt cin, hv', hbits'⟩

end Sys2Proof.Machine
end

section
/-! The fault causes of 60_exceptions.md: which commands fault (R300, R303), and what a fault leaves (R301, R302). -/

namespace Sys2Proof.Machine

open Claims

/-- The condition under which the command at the ports of `s` raises a cause, as the table of R300 words it. -/
def FaultCondition (s : State) (c : Cause) : Prop :=
  match c with
  | .illegalOp => ∃ e, decode s.inp.cmd = .error e
  | .divZero => ∃ i, decode s.inp.cmd = .ok i ∧ isDivide i = true ∧ s.inp.b.toNat = 0
  | .shiftRange => ∃ i, decode s.inp.cmd = .ok i ∧ isShift i = true ∧ 128 ≤ s.inp.cnt.toNat

section instruction
variable {i : Instr}

theorem exec_of_isDivide (h : isDivide i = true) (s : State) : ∃ result, exec i s = divideCommand result s := by
  cases i with
  | divu | remu | divs | rems =>
    simp only [exec, execDivu, execRemu, execDivs, execRems]
    exact ⟨_, rfl⟩
  | _ => cases h

theorem exec_of_isShift (h : isShift i = true) (s : State) : ∃ shift, exec i s = shiftCommand shift s := by
  cases i with
  | shl | shrl | shra => exact ⟨_, rfl⟩
  | _ => cases h

/-- Only a divide and a shift have an operand condition (R300). -/
theorem exec_of_not_isDivide_of_not_isShift (hd : isDivide i ≠ true) (hk : isShift i ≠ true) (s : State) :
    ∃ o, exec i s = writeOutputs o s := by
  cases i with
  | divu | remu | divs | rems => exact absurd rfl hd
  | shl | shrl | shra => exact absurd rfl hk
  | _ => exact ⟨_, rfl⟩

end instruction

section command
variable {s t : State} {c : Cause}

/-- A command faults where R300 says that it does. -/
theorem runCommand_of_faultCondition (h : FaultCondition s c) : runCommand s = .next (s.raiseFault c) := by
  cases c with
  | illegalOp =>
    obtain ⟨e, he⟩ := h
    rw [runCommand_of_error he, raiseFault_eq_afterFault]
  | divZero =>
    obtain ⟨i, hi, hdivide, hzero⟩ := h
    obtain ⟨result, hexec⟩ := exec_of_isDivide hdivide s
    rw [runCommand_of_ok hi, hexec, divideCommand, opB, if_pos hzero]
  | shiftRange =>
    obtain ⟨i, hi, hshift, hlarge⟩ := h
    obtain ⟨shift, hexec⟩ := exec_of_isShift hshift s
    rw [runCommand_of_ok hi, hexec, shiftCommand, opCount, if_pos hlarge]

/-- A command faults only where R300 says that it does. -/
theorem runCommand_complete_or_faultCondition (s : State) :
    (∃ o, runCommand s = .next (s.complete o)) ∨ ∃ c, FaultCondition s c ∧ runCommand s = .next (s.raiseFault c) := by
  cases hd : decode s.inp.cmd with
  | error e =>
    have hc : FaultCondition s .illegalOp := ⟨e, hd⟩
    exact .inr ⟨_, hc, runCommand_of_faultCondition hc⟩
  | ok i =>
    rw [runCommand_of_ok hd]
    by_cases hdivide : isDivide i = true
    · obtain ⟨result, hexec⟩ := exec_of_isDivide hdivide s
      rw [hexec]
      rcases divideCommand_cases result s with ⟨hzero, hfault⟩ | ⟨-, hdone⟩
      · exact .inr ⟨.divZero, ⟨i, hd, hdivide, hzero⟩, hfault⟩
      · exact .inl ⟨_, hdone⟩
    by_cases hshift : isShift i = true
    · obtain ⟨shift, hexec⟩ := exec_of_isShift hshift s
      rw [hexec]
      rcases shiftCommand_cases shift s with ⟨hlarge, hfault⟩ | ⟨-, hdone⟩
      · exact .inr ⟨.shiftRange, ⟨i, hd, hshift, hlarge⟩, hfault⟩
      · exact .inl ⟨_, hdone⟩
    · exact .inl (exec_of_not_isDivide_of_not_isShift hdivide hshift s)

/-- A command that reports FAULT raised a cause whose condition held. -/
theorem exists_faultCondition_of_statusFault (h : runCommand s = .next t) (hf : statusFault t.status = true) :
    ∃ c, FaultCondition s c ∧ t = s.raiseFault c := by
  rcases runCommand_complete_or_faultCondition s with ⟨o, hs⟩ | ⟨c, hc, hs⟩ <;> cases h.symm.trans hs
  · simp at hf
  · exact ⟨c, hc, rfl⟩

theorem statusCause_eq_zero_iff (h : runCommand s = .next t) :
    statusCause t.status = 0#2 ↔ statusFault t.status = false := by
  rcases runCommand_cases s with ⟨o, hs⟩ | ⟨c, hs⟩ <;> cases h.symm.trans hs
  · simp
  · simp [causeCode_ne_zero]

/-- CAUSE reports a cause exactly under its condition (R300). -/
theorem statusCause_eq_causeCode_iff (h : runCommand s = .next t) (c : Cause) :
    statusCause t.status = causeCode c ↔ FaultCondition s c := by
  constructor
  · intro hcause
    have hfault : statusFault t.status = true := by
      rw [← Bool.not_eq_false, ← statusCause_eq_zero_iff h, hcause]
      exact causeCode_ne_zero c
    obtain ⟨d, hd, rfl⟩ := exists_faultCondition_of_statusFault h hfault
    have hcode : causeCode d = causeCode c := by simpa using hcause
    exact causeCode_injective hcode ▸ hd
  · intro hc
    cases h.symm.trans (runCommand_of_faultCondition hc)
    simp

end command

/-- Settles O14: the clauses for CAUSE 1, 2 and 3 are the three rows of `FaultCondition`. -/
theorem faultCausesOfTheTable : Obligations.FaultCausesOfTheTable := by
  intro s
  obtain ⟨t, ht⟩ : ∃ t, runCommand s = .next t := by
    rcases runCommand_cases s with ⟨_, h⟩ | ⟨_, h⟩ <;> exact ⟨_, h⟩
  refine ⟨t, ht, statusCause_eq_causeCode_iff ht .illegalOp, statusCause_eq_causeCode_iff ht .divZero,
    statusCause_eq_causeCode_iff ht .shiftRange, statusCause_eq_zero_iff ht, fun hfault => ?frame⟩
  obtain ⟨c, -, rfl⟩ := exists_faultCondition_of_statusFault ht hfault
  rfl

/-- Settles O15: the state after a fault is `raiseFault` of a cause whose condition held. -/
theorem faultEffectOnTheState : Obligations.FaultEffectOnTheState := by
  intro s t ht hfault
  obtain ⟨c, hc, rfl⟩ := exists_faultCondition_of_statusFault ht hfault
  refine ⟨rfl, rfl, rfl, rfl, by simp, ?status, rfl, rfl, rfl, rfl, rfl⟩
  rw [raiseFault_status, statusWord_fault]
  cases c with
  | illegalOp => exact .inl ⟨rfl, hc⟩
  | divZero =>
    obtain ⟨i, hi, hdivide, -⟩ := hc
    exact .inr (.inl ⟨rfl, i, hi, hdivide⟩)
  | shiftRange =>
    obtain ⟨i, hi, hshift, -⟩ := hc
    exact .inr (.inr ⟨rfl, i, hi, hshift⟩)

end Sys2Proof.Machine
end

section
/-! What a step of each host line does, and what every step keeps: STICKY but for a reset, and the fault mark
(70_reset_and_hazards.md R340, R344, R345). -/

namespace Sys2Proof.Machine

theorem step_of_line {s : State} {l : Line} (h : s.prog[s.line]? = some l) : step s = runLine l s := by
  simp only [step, fetchLine, h]

theorem step_of_length_le {s : State} (h : s.prog.length ≤ s.line) : step s = .next s := by
  simp only [step, fetchLine, List.getElem?_eq_none h]

theorem exec_completes (i : Instr) (s : State) : ∃ t, exec i s = .next t := by
  rcases exec_cases i s with ⟨o, h⟩ | ⟨c, h⟩ <;> exact ⟨_, h⟩

/-- A command, whether it faults or not, leaves its inputs and the host's state alone (R32, R302). -/
theorem runCommand_frame {s t : State} (h : runCommand s = .next t) :
    t.inp = s.inp ∧ t.prog = s.prog ∧ t.line = s.line ∧ t.vars = s.vars ∧ t.mark = s.mark := by
  rcases runCommand_cases s with ⟨o, hs⟩ | ⟨c, hs⟩ <;> cases h.symm.trans hs <;> exact ⟨rfl, rfl, rfl, rfl, rfl⟩

/-- Settles O6. -/
theorem resetLineClearsEveryRegister : Obligations.ResetLineClearsEveryRegister := by
  intro s hline
  rw [step_of_line hline]
  rfl

/-- Settles O7: a step of another line that left STICKY clear would have found it clear. -/
theorem onlyResetClearsSticky : Obligations.OnlyResetClearsSticky := by
  intro s t hstep hsticky hline
  by_contra hclear
  obtain ⟨hbefore, -⟩ := step_sticky_clear hstep hline (eq_false_of_ne_true hclear)
  exact Bool.noConfusion (hsticky.symm.trans hbefore)

/-- Settles O11. -/
theorem everyStepAndCommandCompletes : Obligations.EveryStepAndCommandCompletes :=
  ⟨step_completes, exec_completes⟩

/-- Settles O56: a command and a reset leave the mark alone, and the host's updates only ever set it. -/
theorem faultMarkIsNeverCleared : Obligations.FaultMarkIsNeverCleared := by
  intro s t hstep hmark
  rcases step_cases s with ⟨-, h⟩ | ⟨c, inp, u, -, -, hu, h⟩ | ⟨-, h⟩ | ⟨l, u, n, -, -, -, hu, h⟩ <;>
    cases hstep.symm.trans h
  · exact hmark
  · obtain ⟨-, -, -, -, hkept⟩ := runCommand_frame hu
    obtain ⟨-, -, -, -, -, -, -, -, hcollect, -⟩ := hostOnly_collectResults c.dsts u
    exact hcollect (hkept.trans hmark)
  · exact hmark
  · obtain ⟨-, -, -, -, -, -, -, -, hhost, -⟩ := hu
    exact hhost hmark

end Sys2Proof.Machine
end

section
/-! The host's part of a command line: the copies after a success, and the cleared destinations after a fault
(70_reset_and_hazards.md R345). -/

namespace Sys2Proof.Machine

/-- The variable gets what the read answers: its bits, or no value after a read fault (R37, log 6). -/
theorem varsGet_copyRegister_same (r : OutReg) (n : Nat) {s : State} (hw : varsWf s.vars) :
    varsGet (copyRegister r n s).vars n = (hostRead r s).toOption := by
  cases h : hostRead r s with
  | ok v => exact (copyRegister_of_ok n h).1
  | error e => exact (copyRegister_of_error n h).2 hw

theorem varsWf_copyRegister (r : OutReg) (n : Nat) {s : State} (hw : varsWf s.vars) :
    varsWf (copyRegister r n s).vars := by
  obtain ⟨-, -, -, -, -, -, -, -, -, hkept⟩ := hostOnly_copyRegister r n s
  exact hkept hw

section destinations
variable {dsts : List (OutReg × Nat)} {s : State} {r : OutReg} {n : Nat}

theorem varsGet_copyRegisters_other (hn : n ∉ dsts.map Prod.snd) :
    varsGet (copyRegisters dsts s).vars n = varsGet s.vars n := by
  induction dsts generalizing s with
  | nil => rfl
  | cons d rest ih =>
    rw [List.map_cons, List.mem_cons, not_or] at hn
    obtain ⟨hhead, hrest⟩ := hn
    exact (ih hrest).trans (varsGet_copyRegister_other d.1 s hhead)

/-- No copy of the line changes a register, and no later copy changes a distinct destination, so each destination holds
what a read of its register answers. -/
theorem varsGet_copyRegisters_of_mem (hd : (dsts.map Prod.snd).Nodup) (hw : varsWf s.vars) (hmem : (r, n) ∈ dsts) :
    varsGet (copyRegisters dsts s).vars n = (hostRead r s).toOption := by
  induction dsts generalizing s with
  | nil => cases hmem
  | cons d rest ih =>
    rw [List.map_cons, List.nodup_cons] at hd
    obtain ⟨hlater, hrest⟩ := hd
    rcases List.mem_cons.mp hmem with rfl | hmem
    · exact (varsGet_copyRegisters_other hlater).trans (varsGet_copyRegister_same r n hw)
    · rw [← hostRead_hostOnly (hostOnly_copyRegister d.1 d.2 s) r]
      exact ih hrest (varsWf_copyRegister d.1 d.2 hw) hmem

/-- One register without a value is enough to set the mark. -/
theorem copyRegisters_mark_of_error {e : Fault} (hmem : (r, n) ∈ dsts) (he : hostRead r s = .error e) :
    (copyRegisters dsts s).mark = true := by
  induction dsts generalizing s with
  | nil => cases hmem
  | cons d rest ih =>
    rcases List.mem_cons.mp hmem with rfl | hmem
    · obtain ⟨-, -, -, -, -, -, -, -, hkept, -⟩ := hostOnly_copyRegisters rest (copyRegister r n s)
      exact hkept (copyRegister_of_error n he).1
    · exact ih hmem ((hostRead_hostOnly (hostOnly_copyRegister d.1 d.2 s) r).trans he)

theorem copyRegisters_mark_of_forall_ok (hok : ∀ r n, (r, n) ∈ dsts → ∃ v, hostRead r s = .ok v) :
    (copyRegisters dsts s).mark = s.mark := by
  induction dsts generalizing s with
  | nil => rfl
  | cons d rest ih =>
    obtain ⟨v, hv⟩ := hok d.1 d.2 List.mem_cons_self
    refine (ih fun r n hmem => ?_).trans (copyRegister_of_ok d.2 hv).2
    rw [hostRead_hostOnly (hostOnly_copyRegister d.1 d.2 s) r]
    exact hok r n (List.mem_cons_of_mem d hmem)

theorem varsGet_clearDestinations_other (hn : n ∉ dsts.map Prod.snd) :
    varsGet (clearDestinations dsts s).vars n = varsGet s.vars n := by
  induction dsts generalizing s with
  | nil => rfl
  | cons d rest ih =>
    rw [List.map_cons, List.mem_cons, not_or] at hn
    obtain ⟨hhead, hrest⟩ := hn
    exact (ih hrest).trans (varsGet_set_other s.vars none hhead)

/-- A destination named again later is cleared there, and one not named again keeps no value. -/
theorem varsGet_clearDestinations_of_mem (hw : varsWf s.vars) (hn : n ∈ dsts.map Prod.snd) :
    varsGet (clearDestinations dsts s).vars n = none := by
  induction dsts generalizing s with
  | nil => cases hn
  | cons d rest ih =>
    by_cases hrest : n ∈ rest.map Prod.snd
    · exact ih (varsWf_set d.2 none hw) hrest
    · obtain rfl : n = d.2 := (List.mem_cons.mp hn).resolve_right hrest
      exact (varsGet_clearDestinations_other hrest).trans (varsGet_set_same d.2 none hw)

end destinations

theorem collectResults_of_success {s : State} (dsts : List (OutReg × Nat)) (h : statusFault s.status = false) :
    collectResults dsts s = copyRegisters dsts s := by
  simp only [collectResults, h, Bool.false_eq_true, if_false]

theorem collectResults_of_fault {s : State} (dsts : List (OutReg × Nat)) (h : statusFault s.status = true) :
    collectResults dsts s = (clearDestinations dsts s).setMark := by
  simp only [collectResults, h, if_true]

/-- Settles O52: the command leaves the variables and the mark to the copies, and the copies leave the registers alone. -/
theorem commandLineCopiesItsResults : Obligations.CommandLineCopiesItsResults := by
  intro s t c inp hline hinp hrun hsuccess hdistinct hw
  obtain ⟨-, hprog, hcounter, hvars, hmark⟩ := runCommand_frame hrun
  replace hw : varsWf t.vars := hvars ▸ hw
  obtain ⟨hy, hz, hf, ho, hstatus, -, hprog', hcounter', -⟩ := hostOnly_copyRegisters c.dsts t
  have hstep := step_of_issue hline hinp hrun
  rw [collectResults_of_success c.dsts hsuccess] at hstep
  have hcopy {r n} (hmem : (r, n) ∈ c.dsts) := varsGet_copyRegisters_of_mem hdistinct hw hmem
  refine ⟨_, hstep, fun r n v hmem hread => ?value, fun r n e hmem hread => ⟨?noValue, ?markSet⟩, fun n hn => ?other,
    fun hok => ?markKept, congrArg (· + 1) (hcounter'.trans hcounter), hprog'.trans hprog, hy, hz, hf, ho, hstatus⟩
  case value | noValue => exact (hcopy hmem).trans (congrArg Except.toOption hread)
  case markSet => exact copyRegisters_mark_of_error hmem hread
  case other => exact (varsGet_copyRegisters_other hn).trans (congrArg (varsGet · n) hvars)
  case markKept => exact (copyRegisters_mark_of_forall_ok hok).trans hmark

/-- Settles O53: the fault leaves no output register a value, and the host clears the destinations. -/
theorem commandLineFaultClearsItsDestinations : Obligations.CommandLineFaultClearsItsDestinations := by
  intro s t c inp hline hinp hrun hfault hw
  have hstep := step_of_issue hline hinp hrun
  rw [collectResults_of_fault c.dsts hfault] at hstep
  obtain ⟨cause, -, rfl⟩ := exists_faultCondition_of_statusFault hrun hfault
  obtain ⟨hy, hz, hf, ho, hstatus, -, hprog, hcounter, -⟩ :=
    hostOnly_clearDestinations c.dsts (State.raiseFault cause { s with inp := inp })
  exact ⟨_, hstep, fun r n hmem => varsGet_clearDestinations_of_mem hw (List.mem_map_of_mem hmem),
    fun n hn => varsGet_clearDestinations_other hn, rfl, congrArg (· + 1) hcounter, hprog, hy, hz, hf, ho, hstatus⟩

end Sys2Proof.Machine
end

section
/-! Lines that read variables: what a variable with no value does to a line, and what copies, jumps and tests do with the
contents they find (70_reset_and_hazards.md R345). -/

namespace Sys2Proof.Machine

section noValue
variable {vars : List (Nat × HostVal)} {n : Nat}

theorem srcValue_var_of_none (h : varsGet vars n = none) : srcValue (.var n) vars = none := by simp only [srcValue, h]

theorem srcCount_var_of_none (h : varsGet vars n = none) : srcCount (.var n) vars = none := by simp only [srcCount, h]

theorem srcBit_var_of_none (h : varsGet vars n = none) : srcBit (.var n) vars = none := by simp only [srcBit, h]

theorem testHolds_of_none {t : HostTest} (h : varsGet vars t.var = none) : testHolds t vars = none := by
  simp only [testHolds, h]

/-- A command line presents nothing when one of its four operand places reads a variable with no value. -/
theorem presentedInputs_of_var_none {c : CmdLine} (h : varsGet vars n = none)
    (hread : c.a = .var n ∨ c.b = .var n ∨ c.cnt = .var n ∨ c.cin = .var n) : presentedInputs c vars = none := by
  unfold presentedInputs
  split
  next ha hb hcnt hcin =>
    rcases hread with hvar | hvar | hvar | hvar
    · rw [hvar, srcValue_var_of_none h] at ha; cases ha
    · rw [hvar, srcValue_var_of_none h] at hb; cases hb
    · rw [hvar, srcCount_var_of_none h] at hcnt; cases hcnt
    · rw [hvar, srcBit_var_of_none h] at hcin; cases hcin
  next => rfl

end noValue

section tests
variable {t : HostTest} {s : State} {onTrue onFalse : Nat}

theorem runTest_of_none (h : testHolds t s.vars = none) : runTest t onTrue onFalse s = lineWithoutEffect s := by
  simp only [runTest, h]

theorem runTest_of_some {b : Bool} (h : testHolds t s.vars = some b) :
    runTest t onTrue onFalse s = { s with line := if b then onTrue else onFalse } := by
  cases b <;> simp only [runTest, h] <;> rfl

end tests

/-- Settles O54: each of the four kinds of line finds no content to work on. -/
theorem readingNoValueSetsTheMark : Obligations.ReadingNoValueSetsTheMark := by
  intro s n hnone
  refine ⟨fun c hline hread => ?command, fun d hline => ?copy, fun t target hvar hline => ?test⟩
  case command =>
    rw [step_of_line hline]
    simp only [runLine, runIssue, presentedInputs_of_var_none hnone hread]
    rfl
  case copy =>
    rw [step_of_line hline]
    simp only [runLine, runCopy, srcAny, hnone]
    rfl
  case test =>
    have hundecided : testHolds t s.vars = none := testHolds_of_none (hvar ▸ hnone)
    rcases hline with hline | hline <;> rw [step_of_line hline, runLine, runTest_of_none hundecided] <;> rfl

theorem step_of_copy {s : State} {d : Nat} {src : Src HostVal} {v : HostVal}
    (hline : s.prog[s.line]? = some (.copy d src)) (hsrc : srcAny src s.vars = some v) :
    step s = .next (s.setVar d (some v)).advance := by
  simp only [step_of_line hline, runLine, runCopy, hsrc]

/-- A test of a variable with some content compares that content with the literal. -/
theorem testHolds_of_some {vars : List (Nat × HostVal)} {n : Nat} {c : HostVal} (h : varsGet vars n = some c) (r : Rel)
    (l : HostVal) : testHolds { var := n, rel := r, lit := l } vars = contentRel r c l := by
  simp only [testHolds, h]

/-- Contents without an order are compared for equality alone. -/
theorem equalityRel_eq_none_iff (r : Rel) (equal : Bool) : equalityRel r equal = none ↔ r ≠ .eq ∧ r ≠ .ne := by
  cases r <;> simp [equalityRel]

/-- The number a bit is compared as (log 8). -/
theorem toNat_beq_toNat (b : Bool) (w : Value) :
    (b.toNat == w.toNat) = decide (w.toNat = if b then 1 else 0) := by
  cases b <;> simp only [beq_eq_decide, eq_comm] <;> rfl

/-- Settles O55: a line moves the counter or one variable, and a test decides by the kinds of the two contents. -/
theorem hostCopiesAndControlLines : Obligations.HostCopiesAndControlLines := by
  refine ⟨fun s => ⟨fun d v hline => ?copyLit, fun d n v hline hv => ?copyVar, fun target hline => ?goto,
    fun t target b hline hb => ?ifGoto, fun t exit b hline hb => ?whileDo, step_of_length_le⟩,
    fun vars n => ⟨fun r v w hv => ?values, fun b c hb => ?bits, fun b w hb => ?bitAndNumber, fun o p ho => ?orders,
      fun r c l hc => ?undecided⟩⟩
  case copyLit => exact step_of_copy hline rfl
  case copyVar => exact step_of_copy hline hv
  case goto => exact step_of_line hline
  case ifGoto => rw [step_of_line hline, runLine, runTest_of_some hb]
  case whileDo => rw [step_of_line hline, runLine, runTest_of_some hb]
  case values =>
    rw [testHolds_of_some hv]
    cases r <;> simp only [contentRel, valueRel, BitVec.toNat_inj, ne_eq, gt_iff_lt, ge_iff_le]
  case bits => simp only [testHolds_of_some hb, contentRel, equalityRel, beq_eq_decide, decide_not, ne_eq, and_self]
  case bitAndNumber =>
    simp only [testHolds_of_some hb, contentRel, equalityRel, toNat_beq_toNat, decide_not, ne_eq, and_self]
  case orders => simp only [testHolds_of_some ho, contentRel, equalityRel, beq_eq_decide, decide_not, ne_eq, and_self]
  case undecided =>
    rw [testHolds_of_some hc]
    cases c <;> cases l <;> simp [contentRel, equalityRel_eq_none_iff]

end Sys2Proof.Machine
end
